-- ==== Sys2Proof/Word.lean ====
section
/-! DEFINITION. The two widths of the machine: bytes of Memory and 16-bit words (00_scope.md R8). -/

namespace Sys2Proof

/-- A byte, an unsigned integer in `[0, 255]` (00_scope.md R8). -/
abbrev Byte := BitVec 8

/-- A word, an unsigned integer in `[0, 65535]`: a register, a literal, an address (00_scope.md R8, R5 `XLEN`). -/
abbrev Word := BitVec 16

end Sys2Proof
end

