-- ==== Sys2Proof/Config.lean ====
section
/-! DEFINITION. The implementation parameters of 00_scope.md R5: the length of Memory, the opcode map, what an
unknown opcode does, and the stack's low-water mark. `REG_COUNT` (12) and `XLEN` (16) are fixed, so they stand in the
types; `STACK_TOP` is `N - 2`; `MEM_INIT` is an argument of `construct` (Machine/Driver.lean). The spec leaves no value
free beyond these parameters (93_implementation_defined.md Part 1), so no opaque constant is declared. -/

namespace Sys2Proof

/-- The parameter `OPC`: the opcode byte of each of the nine mnemonics (00_scope.md R5, 30_encoding.md R68). -/
structure OpcodeMap where
  movLitReg : Byte
  movRegReg : Byte
  movRegMem : Byte
  movMemReg : Byte
  addRegReg : Byte
  jmpNotEq : Byte
  pshLit : Byte
  pshReg : Byte
  pop : Byte
deriving DecidableEq, Repr

/-- The nine opcode bytes in the order of the opcode map (30_encoding.md R68). -/
def OpcodeMap.bytes (opc : OpcodeMap) : List Byte :=
  [opc.movLitReg, opc.movRegReg, opc.movRegMem, opc.movMemReg, opc.addRegReg, opc.jmpNotEq,
   opc.pshLit, opc.pshReg, opc.pop]

/-- "`OPC` must be injective: no two mnemonics share a byte" (30_encoding.md R68). -/
abbrev OpcodeMap.Injective (opc : OpcodeMap) : Prop := opc.bytes.Nodup

/-- The parameter `UNKNOWN_OPCODE_MODE` (00_scope.md R5, 40_fetch_step.md R90). -/
inductive UnknownOpcodeMode where
  /-- An unknown opcode raises `InvalidOpcode`. -/
  | fault
  /-- An unknown opcode is a one-byte no-op. -/
  | nop
deriving DecidableEq, Repr

/-- The parameters of one instance of the machine, fixed when it is constructed (00_scope.md R5). -/
structure Config where
  /-- `N`, the length of program Memory in bytes. -/
  memLen : Nat
  /-- `OPC`. -/
  opc : OpcodeMap
  /-- `UNKNOWN_OPCODE_MODE`. -/
  unknownOpcodeMode : UnknownOpcodeMode
  /-- `STACK_LOW`, the least value `SP` may hold after a push. -/
  stackLow : Nat
deriving DecidableEq, Repr

/-- The ranges 00_scope.md R5 gives the parameters: `2 <= N <= 65536`, `STACK_LOW <= N - 2`, `OPC` injective. -/
abbrev Config.Wf (c : Config) : Prop :=
  2 ≤ c.memLen ∧ c.memLen ≤ 65536 ∧ c.stackLow + 2 ≤ c.memLen ∧ c.opc.Injective

end Sys2Proof
end

