-- ==== Sys2Proof/Machine/Memory.lean ====
section
/-! DEFINITION. Program Memory as plain data: a list of cells in one canonical form, its byte read and byte write
(20_memory.md R40, R41, R42). Bounds are checked by the accesses of Machine/Ops.lean, not here. -/

namespace Sys2Proof.Machine

/-- Memory: the cells whose byte differs from what an unlisted address reads as, addresses strictly rising. -/
abbrev Memory := List Host.Cell

/-- What an address no cell lists reads as. DESIGN CHOICE: zero; the spec takes every byte of Memory from the driver's
`MEM_INIT` (92_eei_decisions.md D10), and any such image is written out by listing its non-zero bytes (log entry 6). -/
def unlistedByte : Byte := 0

/-- The byte `mem[a]` (20_memory.md R40). -/
def memByte : Memory → Nat → Byte
  | [], _ => unlistedByte
  | c :: m, a => if c.1 = a then c.2 else memByte m a

/-- Memory without the cell at address `a`. -/
def memErase (m : Memory) (a : Nat) : Memory := m.filter fun c => c.1 != a

/-- A cell put in its place by address. -/
def memInsert (a : Nat) (b : Byte) : Memory → Memory
  | [] => [(a, b)]
  | c :: m => if a < c.1 then (a, b) :: c :: m else c :: memInsert a b m

/-- `mem[a] <- b`, keeping the canonical form (20_memory.md R42). -/
def memSet (m : Memory) (a : Nat) (b : Byte) : Memory :=
  if b = unlistedByte then memErase m a else memInsert a b (memErase m a)

/-- The addresses of the cells rise strictly. -/
def memRising : Memory → Bool
  | [] => true
  | [_] => true
  | c :: d :: m => decide (c.1 < d.1) && memRising (d :: m)

/-- The canonical form: addresses strictly rising, and no cell that says what an unlisted address reads as. -/
def Memory.wf (m : Memory) : Bool := memRising m && m.all fun c => c.2 != unlistedByte

/-- Every cell lies inside a Memory of `n` bytes (20_memory.md R40: "addresses are integers in `[0, N)`"). -/
def Memory.within (n : Nat) (m : Memory) : Bool := m.all fun c => decide (c.1 < n)

/-- The Memory of `n` bytes that holds an image: the parameter `MEM_INIT` of 00_scope.md R5 as cells. -/
def memOfImage (n : Nat) (image : Nat → Byte) : Memory :=
  (List.range n).filterMap fun a => if image a = unlistedByte then none else some (a, image a)

end Sys2Proof.Machine
end

