-- ==== Sys2Proof/Machine/Bytes.lean ====
section
/-! DEFINITION. The byte order and the truncations every other file uses, said once (00_scope.md R8, 20_memory.md R46). -/

namespace Sys2Proof.Machine

/-- The high byte `w[15:8]` of a word (00_scope.md R8). -/
def hiByte (w : Word) : Byte := w.extractLsb' 8 8

/-- The low byte `w[7:0]` of a word (00_scope.md R8). -/
def loByte (w : Word) : Byte := w.extractLsb' 0 8

/-- Concatenation `{hi, lo} = hi * 256 + lo` of two bytes, the first the more significant (00_scope.md R8). -/
def joinBytes (hi lo : Byte) : Word := hi ++ lo

/-- `v mod 65536` for any integer `v`, the non-negative remainder (10_state.md R22). -/
def truncWord (v : Int) : Word := BitVec.ofInt 16 v

/-- `v mod 256` for any integer `v` (20_memory.md R42; the spec's decision D18, log entry 14). -/
def truncByte (v : Int) : Byte := BitVec.ofInt 8 v

end Sys2Proof.Machine
end

