-- ==== Sys2Proof/Syntax.lean ====
section
/-! DEFINITION. The registers by name, the nine mnemonics and the instructions (10_state.md R21, 30_encoding.md R66 to R68). -/

namespace Sys2Proof

/-- The twelve registers, in the fixed enumeration order `IP, ACC, R1..R8, SP, FP` (10_state.md R21). -/
inductive Reg where
  | ip | acc | r1 | r2 | r3 | r4 | r5 | r6 | r7 | r8 | sp | fp
deriving DecidableEq, Repr

/-- The nine mnemonics of the opcode map (30_encoding.md R68). -/
inductive Mnemonic where
  | movLitReg | movRegReg | movRegMem | movMemReg | addRegReg | jmpNotEq | pshLit | pshReg | pop
deriving DecidableEq, Repr

/-- The three kinds of operand field (30_encoding.md R66). -/
inductive FieldKind where
  /-- A register operand, one byte. -/
  | reg
  /-- A literal `imm16`, two bytes big-endian. -/
  | literal
  /-- An address `addr16`, two bytes big-endian. -/
  | address
deriving DecidableEq, Repr

/-- One instruction: the mnemonic with its operand fields in encoding order (30_encoding.md R67, R68).
A register operand is kept as the byte that encodes it, as 30_encoding.md R74 writes it; which register it
selects is said by the operand forms of Machine/Operands.lean (log entry 20). -/
inductive Instr where
  /-- `MOV_LIT_REG imm16, reg` (41_mov.md R100). -/
  | movLitReg (imm16 : Word) (reg : Byte)
  /-- `MOV_REG_REG regFrom, regTo` (41_mov.md R101). -/
  | movRegReg (regFrom regTo : Byte)
  /-- `MOV_REG_MEM reg, addr16` (41_mov.md R102). -/
  | movRegMem (reg : Byte) (addr16 : Word)
  /-- `MOV_MEM_REG addr16, reg` (41_mov.md R103). -/
  | movMemReg (addr16 : Word) (reg : Byte)
  /-- `ADD_REG_REG regA, regB`, raw indices (42_add.md R110). -/
  | addRegReg (regA regB : Byte)
  /-- `JMP_NOT_EQ imm16, addr16` (43_jmp.md R120). -/
  | jmpNotEq (imm16 addr16 : Word)
  /-- `PSH_LIT imm16` (44_stack.md R132). -/
  | pshLit (imm16 : Word)
  /-- `PSH_REG reg` (44_stack.md R133). -/
  | pshReg (reg : Byte)
  /-- `POP reg` (44_stack.md R134). -/
  | pop (reg : Byte)
deriving DecidableEq, Repr

/-- The mnemonic of an instruction. -/
def Instr.mnemonic : Instr → Mnemonic
  | .movLitReg _ _ => .movLitReg
  | .movRegReg _ _ => .movRegReg
  | .movRegMem _ _ => .movRegMem
  | .movMemReg _ _ => .movMemReg
  | .addRegReg _ _ => .addRegReg
  | .jmpNotEq _ _ => .jmpNotEq
  | .pshLit _ => .pshLit
  | .pshReg _ => .pshReg
  | .pop _ => .pop

end Sys2Proof
end

