-- ==== Sys2Proof/Decode.lean ====
section
/-! DEFINITION. The encoding: opcode map, decoder and encoder (30_encoding.md R65 to R72, 40_fetch_step.md R89).
The decoder is written once over any source of bytes, so that `decode` (a list of bytes) and the machine's own fetch
(Machine/Fetch.lean, at `IP`, with its faults) read the same fields in the same order. -/

namespace Sys2Proof

open Sys2Proof.Machine (hiByte loByte joinBytes)

/-- The default of the parameter `OPC` (30_encoding.md R68). PRESUMED: the spec supplies these nine values from general
knowledge, not from its source (92_eei_decisions.md D1; log entry 3). -/
def defaultOpc : OpcodeMap where
  movLitReg := 0x10
  movRegReg := 0x11
  movRegMem := 0x12
  movMemReg := 0x13
  addRegReg := 0x14
  jmpNotEq := 0x15
  pshLit := 0x17
  pshReg := 0x18
  pop := 0x1A

/-- The opcode byte `OPC(m)` of a mnemonic (30_encoding.md R68). -/
def opcodeByte (opc : OpcodeMap) : Mnemonic → Byte
  | .movLitReg => opc.movLitReg
  | .movRegReg => opc.movRegReg
  | .movRegMem => opc.movRegMem
  | .movMemReg => opc.movMemReg
  | .addRegReg => opc.addRegReg
  | .jmpNotEq => opc.jmpNotEq
  | .pshLit => opc.pshLit
  | .pshReg => opc.pshReg
  | .pop => opc.pop

/-- The mnemonic an opcode byte selects, tried in the order of 40_fetch_step.md R89; `none` is an unknown opcode
(30_encoding.md R72). -/
def selectOpcode (opc : OpcodeMap) (op : Byte) : Option Mnemonic :=
  if op = opc.movLitReg then some .movLitReg
  else if op = opc.movRegReg then some .movRegReg
  else if op = opc.movRegMem then some .movRegMem
  else if op = opc.movMemReg then some .movMemReg
  else if op = opc.addRegReg then some .addRegReg
  else if op = opc.jmpNotEq then some .jmpNotEq
  else if op = opc.pshLit then some .pshLit
  else if op = opc.pshReg then some .pshReg
  else if op = opc.pop then some .pop
  else none

/-- The operand fields of each mnemonic, in encoding order (30_encoding.md R67, R68). -/
def operandFields : Mnemonic → List FieldKind
  | .movLitReg => [.literal, .reg]
  | .movRegReg => [.reg, .reg]
  | .movRegMem => [.reg, .address]
  | .movMemReg => [.address, .reg]
  | .addRegReg => [.reg, .reg]
  | .jmpNotEq => [.literal, .address]
  | .pshLit => [.literal]
  | .pshReg => [.reg]
  | .pop => [.reg]

/-- The size of an operand field in bytes (30_encoding.md R66). -/
def fieldSize : FieldKind → Nat
  | .reg => 1
  | .literal => 2
  | .address => 2

/-- The length in bytes of an instruction, its opcode byte included (30_encoding.md R68, R71). -/
def instrLength (m : Mnemonic) : Nat := 1 + ((operandFields m).map fieldSize).sum

/-- The decode phase of 40_fetch_step.md R89 over any source of bytes `σ`: the operand fields of the selected
instruction, in encoding order, register operands by `fetch8` and 16-bit fields by `fetch16`. -/
def decodeOperands {σ ε : Type} (fetch8 : σ → Except ε (Byte × σ)) (fetch16 : σ → Except ε (Word × σ)) :
    Mnemonic → σ → Except ε (Instr × σ)
  | .movLitReg, st => do
      let (imm, st) ← fetch16 st
      let (reg, st) ← fetch8 st
      return (.movLitReg imm reg, st)
  | .movRegReg, st => do
      let (regFrom, st) ← fetch8 st
      let (regTo, st) ← fetch8 st
      return (.movRegReg regFrom regTo, st)
  | .movRegMem, st => do
      let (reg, st) ← fetch8 st
      let (addr, st) ← fetch16 st
      return (.movRegMem reg addr, st)
  | .movMemReg, st => do
      let (addr, st) ← fetch16 st
      let (reg, st) ← fetch8 st
      return (.movMemReg addr reg, st)
  | .addRegReg, st => do
      let (regA, st) ← fetch8 st
      let (regB, st) ← fetch8 st
      return (.addRegReg regA regB, st)
  | .jmpNotEq, st => do
      let (imm, st) ← fetch16 st
      let (addr, st) ← fetch16 st
      return (.jmpNotEq imm addr, st)
  | .pshLit, st => do
      let (imm, st) ← fetch16 st
      return (.pshLit imm, st)
  | .pshReg, st => do
      let (reg, st) ← fetch8 st
      return (.pshReg reg, st)
  | .pop, st => do
      let (reg, st) ← fetch8 st
      return (.pop reg, st)

/-- Why a list of bytes is no instruction. -/
inductive DecodeError where
  /-- There is no byte to take the opcode from. -/
  | noOpcode
  /-- The opcode byte is outside the image of `OPC` (30_encoding.md R72). -/
  | unknownOpcode (op : Byte)
  /-- The bytes end before the last operand field does. -/
  | truncated
deriving DecidableEq, Repr

/-- The next byte of a list. -/
def takeByte : List Byte → Except DecodeError (Byte × List Byte)
  | b :: rest => .ok (b, rest)
  | [] => .error .truncated

/-- The next 16-bit field of a list, `{byte j, byte j+1}` (30_encoding.md R69). -/
def takeWord : List Byte → Except DecodeError (Word × List Byte)
  | hi :: lo :: rest => .ok (joinBytes hi lo, rest)
  | [_] => .error .truncated
  | [] => .error .truncated

/-- The decoder: the instruction at the head of a list of bytes, with the bytes after it (30_encoding.md R71). -/
def decode (opc : OpcodeMap) : List Byte → Except DecodeError (Instr × List Byte)
  | [] => .error .noOpcode
  | op :: rest =>
    match selectOpcode opc op with
    | none => .error (.unknownOpcode op)
    | some m => decodeOperands takeByte takeWord m rest

/-- The two bytes of a 16-bit field, high byte first (30_encoding.md R67, R69). -/
def wordField (w : Word) : List Byte := [hiByte w, loByte w]

/-- The bytes of an instruction in increasing address order (30_encoding.md R67). -/
def encode (opc : OpcodeMap) : Instr → List Byte
  | .movLitReg imm reg => opc.movLitReg :: (wordField imm ++ [reg])
  | .movRegReg regFrom regTo => [opc.movRegReg, regFrom, regTo]
  | .movRegMem reg addr => opc.movRegMem :: reg :: wordField addr
  | .movMemReg addr reg => opc.movMemReg :: (wordField addr ++ [reg])
  | .addRegReg regA regB => [opc.addRegReg, regA, regB]
  | .jmpNotEq imm addr => opc.jmpNotEq :: (wordField imm ++ wordField addr)
  | .pshLit imm => opc.pshLit :: wordField imm
  | .pshReg reg => [opc.pshReg, reg]
  | .pop reg => [opc.pop, reg]

/-- The `n` lowest bytes of a number, least significant first: how spec/opcode_table.json numbers an instruction's
bits over its bytes in address order. -/
def bytesOfNat : Nat → Nat → List Byte
  | 0, _ => []
  | n + 1, w => BitVec.ofNat 8 w :: bytesOfNat n (w / 256)

/-- The five bytes (the longest instruction, 30_encoding.md R65) that a table word of `nbits` bits stands for, every
bit above `nbits` zero. -/
def tableBytes (nbits w : Nat) : List Byte := bytesOfNat 5 (w % 2 ^ nbits)

/-- The instruction the decoder reads, under the default `OPC`, from the bits of a table row. -/
def decodeTableWord (nbits w : Nat) : Option Instr :=
  match decode defaultOpc (tableBytes nbits w) with
  | .ok (i, _) => some i
  | .error _ => none

end Sys2Proof
end

