-- ==== Sys2Proof/Machine/Params.lean ====
section
/-! DEFINITION. The parameters of the instance that `State.reset` describes: the defaults of 00_scope.md R5. -/

namespace Sys2Proof.Machine

/-- The instance of `State.reset`: default `OPC` (D1, log entry 3), `fault` mode (D2, log entry 4), `STACK_LOW = 0`
(D7) and, DESIGN CHOICE since R5 gives `N` no default, the largest Memory, `N = 65536` (log entry 2). -/
def defaultConfig : Config where
  memLen := 65536
  opc := defaultOpc
  unknownOpcodeMode := .fault
  stackLow := 0

end Sys2Proof.Machine
end

