-- ==== Sys2Proof/Machine/RegFile.lean ====
section
/-! DEFINITION. The register file: twelve words, its read, its write and its reset values (10_state.md R21 to R23, R37).
The private 24-byte backing buffer is not reachable but by whole registers, so the registers are held as words (R23). -/

namespace Sys2Proof.Machine

/-- The twelve 16-bit registers in enumeration order (10_state.md R21). -/
structure RegFile where
  ip : Word
  acc : Word
  r1 : Word
  r2 : Word
  r3 : Word
  r4 : Word
  r5 : Word
  r6 : Word
  r7 : Word
  r8 : Word
  sp : Word
  fp : Word
deriving DecidableEq, Repr

/-- The value of a register (10_state.md R22). -/
def regRead (rf : RegFile) : Reg → Word
  | .ip => rf.ip
  | .acc => rf.acc
  | .r1 => rf.r1
  | .r2 => rf.r2
  | .r3 => rf.r3
  | .r4 => rf.r4
  | .r5 => rf.r5
  | .r6 => rf.r6
  | .r7 => rf.r7
  | .r8 => rf.r8
  | .sp => rf.sp
  | .fp => rf.fp

/-- The register file with one register written (10_state.md R22); every one of the twelve is writable (R21). -/
def regWrite (rf : RegFile) (r : Reg) (v : Word) : RegFile :=
  match r with
  | .ip => { rf with ip := v }
  | .acc => { rf with acc := v }
  | .r1 => { rf with r1 := v }
  | .r2 => { rf with r2 := v }
  | .r3 => { rf with r3 := v }
  | .r4 => { rf with r4 := v }
  | .r5 => { rf with r5 := v }
  | .r6 => { rf with r6 := v }
  | .r7 => { rf with r7 := v }
  | .r8 => { rf with r8 := v }
  | .sp => { rf with sp := v }
  | .fp => { rf with fp := v }

/-- The index of a register in the enumeration (10_state.md R21). DEDUCED by the spec from the order (N12; log entry 9). -/
def regIndex : Reg → Nat
  | .ip => 0
  | .acc => 1
  | .r1 => 2
  | .r2 => 3
  | .r3 => 4
  | .r4 => 5
  | .r5 => 6
  | .r6 => 7
  | .r7 => 8
  | .r8 => 9
  | .sp => 10
  | .fp => 11

/-- The byte offset `2k` of a register's slot in the backing buffer (10_state.md R21, R23). -/
def regOffset (r : Reg) : Nat := 2 * regIndex r

/-- The register with an index, `none` from 12 on (10_state.md R21, R26). -/
def regOfIndex : Nat → Option Reg
  | 0 => some .ip
  | 1 => some .acc
  | 2 => some .r1
  | 3 => some .r2
  | 4 => some .r3
  | 5 => some .r4
  | 6 => some .r5
  | 7 => some .r6
  | 8 => some .r7
  | 9 => some .r8
  | 10 => some .sp
  | 11 => some .fp
  | _ + 12 => none

/-- The name of a register (10_state.md R21). -/
def regName : Reg → String
  | .ip => "IP"
  | .acc => "ACC"
  | .r1 => "R1"
  | .r2 => "R2"
  | .r3 => "R3"
  | .r4 => "R4"
  | .r5 => "R5"
  | .r6 => "R6"
  | .r7 => "R7"
  | .r8 => "R8"
  | .sp => "SP"
  | .fp => "FP"

/-- The twelve registers in enumeration order (10_state.md R21). -/
def allRegs : List Reg := [.ip, .acc, .r1, .r2, .r3, .r4, .r5, .r6, .r7, .r8, .sp, .fp]

/-- The register a name declares, if any (10_state.md R24). -/
def regOfName (name : String) : Option Reg := allRegs.find? fun r => regName r == name

/-- The reset values over a Memory of `n` bytes: `IP = 0`, `SP = FP = n - 2`, the others 0 (10_state.md R37).
PRESUMED: the zeros of `ACC` and `R1` to `R8` are the spec's own decision D9 from general knowledge (log entry 5). -/
def resetRegs (n : Nat) : RegFile where
  ip := 0
  acc := 0
  r1 := 0
  r2 := 0
  r3 := 0
  r4 := 0
  r5 := 0
  r6 := 0
  r7 := 0
  r8 := 0
  sp := truncWord ((n : Int) - 2)
  fp := truncWord ((n : Int) - 2)

end Sys2Proof.Machine
end

