-- ==== Sys2Proof/Machine/State.lean ====
section
/-! DEFINITION. The state, the five faults, the refusals and the state after reset (10_state.md R20, R37;
60_exceptions.md R140). -/

namespace Sys2Proof.Machine

/-- The whole state: the twelve registers and program Memory (10_state.md R20), and the parameters the instance was
constructed with, which no step changes (00_scope.md R5; log entry 1). -/
structure State where
  /-- The parameters of this instance; configuration, not architectural state. -/
  cfg : Config
  /-- The Register File. -/
  regs : RegFile
  /-- Program Memory, `cfg.memLen` bytes. -/
  mem : Memory
deriving DecidableEq, Repr

/-- The width of a Memory access (20_memory.md R48). -/
inductive Width where
  /-- One byte. -/
  | byte
  /-- Two bytes. -/
  | word
deriving DecidableEq, Repr

/-- The kind of a Memory access, as a `MemoryFault` reports it (20_memory.md R45). -/
inductive AccessKind where
  | fetch | read | write
deriving DecidableEq, Repr

/-- What an `InvalidRegister` reports: the raw index byte, or the unknown name (60_exceptions.md R140, R143). -/
inductive BadRegister where
  | index (b : Byte)
  | name (n : String)
deriving DecidableEq, Repr

/-- The five faults (60_exceptions.md R140). A fault ends the step, is reported to the driver, and leaves the state as
it was before the step (R91, R148; log entry 7). -/
inductive Fault where
  /-- Raised by `step` for an unknown opcode byte `op` at address `addr` in `fault` mode (R141). Safe. -/
  | invalidOpcode (op : Byte) (addr : Word)
  /-- Raised by every bounds-checked Memory access: fetches, the loads and stores of `MOV_MEM_REG`, `MOV_REG_MEM` and
  `push`, and the driver's accesses (R142). Safe. -/
  | memoryFault (addr : Int) (width : Width) (kind : AccessKind)
  /-- Raised by `ADD_REG_REG` for a raw index of 12 or more, and by the driver's accessor for an unknown name (R143).
  Safe. -/
  | invalidRegister (which : BadRegister)
  /-- Raised by `push`, with `SP` before it (R144). Safe. -/
  | stackOverflow (sp : Word)
  /-- Raised by `pop`, with `SP` before it (R145). Safe. -/
  | stackUnderflow (sp : Word)
deriving DecidableEq, Repr

/-- What the model has no meaning for. -/
inductive Refusal where
  /-- An instruction without a meaning yet; only `exec`'s arms would raise it, and none does. Safe. -/
  | notModelled (mnemonic : String)
  /-- Raised by `construct` alone, for parameters outside the ranges of 00_scope.md R5: "refused at construction"
  (92_eei_decisions.md D8). Safe. -/
  | parametersOutOfRange
deriving DecidableEq, Repr

/-- The machine right after construction over a given Memory (70_reset_and_hazards.md R170): the registers take their
reset values and Memory is not touched. -/
def State.constructed (cfg : Config) (mem : Memory) : State where
  cfg := cfg
  regs := resetRegs cfg.memLen
  mem := mem

/-- The machine right after reset: the default parameters and a Memory with nothing listed (10_state.md R37). -/
def State.reset : State := State.constructed defaultConfig []

end Sys2Proof.Machine
end

