-- ==== Sys2Proof/Machine/Ops.lean ====
section
/-! DEFINITION. The named operations over memory and registers: bounds-checked accesses, register access, the
push/pop sequencer, and the one way a step ends in a fault (20_memory.md R41 to R45, 10_state.md R22, 44_stack.md R130
and R131, 40_fetch_step.md R91). Addresses and values are exact integers until a write narrows them. -/

namespace Sys2Proof.Machine

/-- `MemRead(a, 1)` over a Memory of `n` bytes (20_memory.md R41, R45). -/
def memRead8 (n : Nat) (m : Memory) (a : Int) (kind : AccessKind) : Except Fault Byte :=
  if a < 0 ∨ a ≥ n then .error (.memoryFault a .byte kind) else .ok (memByte m a.toNat)

/-- `MemRead(a, 2)` over a Memory of `n` bytes, big-endian (20_memory.md R43, R45). -/
def memRead16 (n : Nat) (m : Memory) (a : Int) (kind : AccessKind) : Except Fault Word :=
  if a < 0 ∨ a + 1 ≥ n then .error (.memoryFault a .word kind)
  else .ok (joinBytes (memByte m a.toNat) (memByte m (a.toNat + 1)))

/-- `MemWrite(a, 1, v)` over a Memory of `n` bytes (20_memory.md R42, R45); no instruction issues it. -/
def memWrite8 (n : Nat) (m : Memory) (a v : Int) : Except Fault Memory :=
  if a < 0 ∨ a ≥ n then .error (.memoryFault a .byte .write) else .ok (memSet m a.toNat (truncByte v))

/-- `MemWrite(a, 2, v)` over a Memory of `n` bytes, big-endian (20_memory.md R44, R45). -/
def memWrite16 (n : Nat) (m : Memory) (a v : Int) : Except Fault Memory :=
  if a < 0 ∨ a + 1 ≥ n then .error (.memoryFault a .word .write)
  else .ok (memSet (memSet m a.toNat (hiByte (truncWord v))) (a.toNat + 1) (loByte (truncWord v)))

/-- The value of a register, `x[i]` (10_state.md R22). -/
def State.reg (s : State) (r : Reg) : Word := regRead s.regs r

/-- A register written with a word (10_state.md R22). -/
def State.setReg (s : State) (r : Reg) (v : Word) : State := { s with regs := regWrite s.regs r v }

/-- `x[i] <- v` for any integer: the register takes `v mod 65536` (10_state.md R22). -/
def State.assign (s : State) (r : Reg) (v : Int) : State := s.setReg r (truncWord v)

/-- The state over another Memory content. -/
def State.setMem (s : State) (m : Memory) : State := { s with mem := m }

/-- The 16-bit data read of `MOV_MEM_REG` (20_memory.md R48). -/
def State.load16 (s : State) (addr : Word) : Except Fault Word :=
  memRead16 s.cfg.memLen s.mem addr.toNat .read

/-- The 16-bit data write of `MOV_REG_MEM` and of `push` (20_memory.md R48). -/
def State.store16 (s : State) (addr v : Word) : Except Fault State :=
  (memWrite16 s.cfg.memLen s.mem addr.toNat v.toNat).map s.setMem

/-- `push(v)` (44_stack.md R130): the slot's bounds, then the low-water mark, then the write at `SP`, then `SP - 2`.
The exact bounds are the spec's decision D7 (log entry 13). -/
def push (v : Word) (s : State) : Except Fault State :=
  let sp := s.reg .sp
  if (sp.toNat : Int) + 1 ≥ s.cfg.memLen then .error (.memoryFault sp.toNat .word .write)
  else if (sp.toNat : Int) - 2 < s.cfg.stackLow then .error (.stackOverflow sp)
  else (s.store16 sp v).map fun s' => s'.assign .sp ((sp.toNat : Int) - 2)

/-- `pop()` (44_stack.md R131): the bound `STACK_TOP = N - 2`, then `SP + 2`, then the read at the new `SP`.
The exact bound is the spec's decision D7 (log entry 13). -/
def pop (s : State) : Except Fault (Word × State) :=
  let sp := s.reg .sp
  if (sp.toNat : Int) + 2 > (s.cfg.memLen : Int) - 2 then .error (.stackUnderflow sp)
  else (memRead16 s.cfg.memLen s.mem ((sp.toNat : Int) + 2) .read).map fun v =>
    (v, s.assign .sp ((sp.toNat : Int) + 2))

/-- Taking a fault: the step ends with it, and nothing the step did so far is kept (40_fetch_step.md R91,
60_exceptions.md R148). Nothing is saved and nothing is entered inside the machine, and there is no return from a
fault (R149). The state the driver still holds is the one before the step (the spec's decision D5, log entry 7). -/
def raise (f : Fault) : Host.Outcome State Fault Refusal := .fault f

/-- How a step ends: its working copy becomes the state, or the fault it met is taken (40_fetch_step.md R91). -/
def commit : Except Fault State → Host.Outcome State Fault Refusal
  | .ok s => .next s
  | .error f => raise f

end Sys2Proof.Machine
end

