-- ==== Sys2Proof/Machine/Operands.lean ====
section
/-! DEFINITION. The operand forms: the wrapped and the raw register operand (10_state.md R25, R26). Literals and
addresses are used as the unsigned words they are, with no extension or scaling (30_encoding.md R69). -/

namespace Sys2Proof.Machine

/-- The register a wrapped operand byte selects, `x[b mod 12]`: never a fault (10_state.md R25, 30_encoding.md R70).
The spec keeps the wrap by its decision D3 (log entry 9). -/
def wrapReg (b : Byte) : Reg := (regOfIndex (b.toNat % 12)).getD .ip

/-- The register a raw operand byte selects, `x[b]`; `InvalidRegister(b)` from 12 on (10_state.md R26,
42_add.md R110), the spec's decision D4 (log entry 10). -/
def rawReg (b : Byte) : Except Fault Reg :=
  match regOfIndex b.toNat with
  | some r => .ok r
  | none => .error (.invalidRegister (.index b))

/-- The value of a wrapped register operand (40_fetch_step.md R93: `IP` reads as the next instruction's address,
since every field was fetched before; the spec's decision D11, log entry 11). -/
def State.operand (s : State) (b : Byte) : Word := s.reg (wrapReg b)

/-- A wrapped register operand written; with `IP` selected this is a jump (40_fetch_step.md R94). -/
def State.setOperand (s : State) (b : Byte) (v : Word) : State := s.setReg (wrapReg b) v

end Sys2Proof.Machine
end

