-- ==== Sys2Proof/Machine/Add.lean ====
section
/-! DEFINITION. The execute phase of the arithmetic instruction (42_add.md R110, R111). -/

namespace Sys2Proof.Machine

/-- `ADD_REG_REG regA, regB`: both raw indices are validated, in order, then `ACC <- (regA + regB) mod 65536`; the
carry is recorded nowhere (42_add.md R110). -/
def execAddRegReg (regA regB : Byte) (s : State) : Host.Outcome State Fault Refusal :=
  commit do
    let ra ← rawReg regA
    let rb ← rawReg regB
    return s.assign .acc (((s.reg ra).toNat : Int) + (s.reg rb).toNat)

end Sys2Proof.Machine
end

