-- ==== Sys2Proof/Machine/Flags.lean ====
section
/-! DEFINITION. The machine has no flags, condition codes or predicate registers, and no instruction computes one
(10_state.md R32). Its one condition is the comparison inside `JMP_NOT_EQ` (43_jmp.md R120). -/

namespace Sys2Proof.Machine

/-- The condition of `JMP_NOT_EQ`: the literal differs from `ACC`, as unsigned words (43_jmp.md R120). -/
def jumpTaken (imm acc : Word) : Bool := imm != acc

end Sys2Proof.Machine
end

