-- ==== Sys2Proof/Machine/Jmp.lean ====
section
/-! DEFINITION. The execute phase of the conditional jump (43_jmp.md R120). -/

namespace Sys2Proof.Machine

/-- `JMP_NOT_EQ imm16, addr16`: `IP <- addr16` when `imm16` differs from `ACC`, else `IP` stays past the instruction;
the target is not checked (43_jmp.md R120, R123). -/
def execJmpNotEq (imm16 addr16 : Word) (s : State) : Host.Outcome State Fault Refusal :=
  commit (.ok (if jumpTaken imm16 (s.reg .acc) then s.setReg .ip addr16 else s))

end Sys2Proof.Machine
end

