-- ==== Sys2Proof/Machine/Mov.lean ====
section
/-! DEFINITION. The execute phase of the move instructions (41_mov.md R100 to R103). `IP` is already past the
instruction's last byte, and no flag exists to change. -/

namespace Sys2Proof.Machine

/-- `MOV_LIT_REG imm16, reg`: `reg <- imm16` (41_mov.md R100). -/
def execMovLitReg (imm16 : Word) (reg : Byte) (s : State) : Host.Outcome State Fault Refusal :=
  commit (.ok (s.setOperand reg imm16))

/-- `MOV_REG_REG regFrom, regTo`: `regTo <- regFrom` (41_mov.md R101). -/
def execMovRegReg (regFrom regTo : Byte) (s : State) : Host.Outcome State Fault Refusal :=
  commit (.ok (s.setOperand regTo (s.operand regFrom)))

/-- `MOV_REG_MEM reg, addr16`: a 16-bit store of the register at `addr16` (41_mov.md R102). -/
def execMovRegMem (reg : Byte) (addr16 : Word) (s : State) : Host.Outcome State Fault Refusal :=
  commit (s.store16 addr16 (s.operand reg))

/-- `MOV_MEM_REG addr16, reg`: a 16-bit load from `addr16` into the register (41_mov.md R103). -/
def execMovMemReg (addr16 : Word) (reg : Byte) (s : State) : Host.Outcome State Fault Refusal :=
  commit ((s.load16 addr16).map fun v => s.setOperand reg v)

end Sys2Proof.Machine
end

