-- ==== Sys2Proof/Machine/Stack.lean ====
section
/-! DEFINITION. The execute phase of the stack instructions over the sequencer's `push` and `pop`
(44_stack.md R132 to R134). `FP` takes no part (R138). -/

namespace Sys2Proof.Machine

/-- `PSH_LIT imm16`: `push(imm16)` (44_stack.md R132). -/
def execPshLit (imm16 : Word) (s : State) : Host.Outcome State Fault Refusal :=
  commit (push imm16 s)

/-- `PSH_REG reg`: `push` of the register's value, read before `push` changes `SP` (44_stack.md R133). -/
def execPshReg (reg : Byte) (s : State) : Host.Outcome State Fault Refusal :=
  commit (push (s.operand reg) s)

/-- `POP reg`: `reg <- pop()`; the register is written after `SP` is raised, so `POP SP` ends with the popped word
(44_stack.md R134). -/
def execPop (reg : Byte) (s : State) : Host.Outcome State Fault Refusal :=
  commit ((pop s).map fun (v, s') => s'.setOperand reg v)

end Sys2Proof.Machine
end

