-- ==== Sys2Proof/Machine/Dispatch.lean ====
section
/-! DEFINITION. The execute phase of `execute(op)`: one arm per instruction (40_fetch_step.md R89). -/

namespace Sys2Proof.Machine

def exec (i : Instr) (s : State) : Host.Outcome State Fault Refusal :=
  match i with
  | .movLitReg imm16 reg => Sys2Proof.Machine.execMovLitReg imm16 reg s
  | .movRegReg regFrom regTo => Sys2Proof.Machine.execMovRegReg regFrom regTo s
  | .movRegMem reg addr16 => Sys2Proof.Machine.execMovRegMem reg addr16 s
  | .movMemReg addr16 reg => Sys2Proof.Machine.execMovMemReg addr16 reg s
  | .addRegReg regA regB => Sys2Proof.Machine.execAddRegReg regA regB s
  | .jmpNotEq imm16 addr16 => Sys2Proof.Machine.execJmpNotEq imm16 addr16 s
  | .pshLit imm16 => Sys2Proof.Machine.execPshLit imm16 s
  | .pshReg reg => Sys2Proof.Machine.execPshReg reg s
  | .pop reg => Sys2Proof.Machine.execPop reg s

end Sys2Proof.Machine
end

