-- ==== Sys2Proof/Machine/Fetch.lean ====
section
/-! DEFINITION. The fetch primitives and the decode phase of a step (40_fetch_step.md R85 to R90). -/

namespace Sys2Proof.Machine

/-- `fetch()`: the byte at `IP`, then `IP <- (IP + 1) mod 65536` (40_fetch_step.md R85; the wrap is the spec's decision
D12, log entry 12). -/
def fetch8 (s : State) : Except Fault (Byte × State) :=
  let a : Int := (s.reg .ip).toNat
  (memRead8 s.cfg.memLen s.mem a .fetch).map fun b => (b, s.assign .ip (a + 1))

/-- `fetch16()`: the big-endian word at `IP` in one access, then `IP <- (IP + 2) mod 65536` (40_fetch_step.md R86). -/
def fetch16 (s : State) : Except Fault (Word × State) :=
  let a : Int := (s.reg .ip).toNat
  (memRead16 s.cfg.memLen s.mem a .fetch).map fun w => (w, s.assign .ip (a + 2))

/-- `fetchRegisterIndex()`: a fetched byte mod 12 (40_fetch_step.md R87). The decoder fetches the byte and the
meanings reduce it with `wrapReg`, which comes to the same since nothing between can observe it (log entry 20). -/
def fetchRegisterIndex (s : State) : Except Fault (Reg × State) :=
  (fetch8 s).map fun (b, s') => (wrapReg b, s')

/-- What the decode phase of a step yields. -/
inductive Fetched where
  /-- An instruction, and the state with `IP` past its last byte. -/
  | instruction (i : Instr) (s : State)
  /-- An unknown opcode in `nop` mode: nothing to execute, `IP` past the opcode byte. -/
  | skipped (s : State)
deriving DecidableEq, Repr

/-- An unknown opcode byte `op` fetched at `addr`; `s` is the state after that fetch (40_fetch_step.md R90; the spec's
decision D2, log entry 4). -/
def unknownOpcode (op : Byte) (addr : Word) (s : State) : Except Fault Fetched :=
  match s.cfg.unknownOpcodeMode with
  | .fault => .error (.invalidOpcode op addr)
  | .nop => .ok (.skipped s)

/-- The opcode fetch of `step` and the decode phase of `execute` (40_fetch_step.md R88, R89): every operand field is
fetched, in encoding order, before anything is executed. -/
def fetchInstr (s : State) : Except Fault Fetched := do
  let (op, s1) ← fetch8 s
  match selectOpcode s.cfg.opc op with
  | none => unknownOpcode op (s.reg .ip) s1
  | some m =>
    let (i, s2) ← decodeOperands fetch8 fetch16 m s1
    return .instruction i s2

/-- Bytes placed where consecutive fetches from `addr` read them: the address wraps as `IP` does
(40_fetch_step.md R85); a byte beyond the end of Memory has no place and is left out. -/
def State.placeBytes (s : State) (addr : Word) : List Byte → State
  | [] => s
  | b :: rest =>
    (if addr.toNat < s.cfg.memLen then s.setMem (memSet s.mem addr.toNat b) else s).placeBytes (addr + 1) rest

end Sys2Proof.Machine
end

