-- ==== Sys2Proof/Machine/Step.lean ====
section
/-! DEFINITION. One `step()`: fetch exactly one opcode with its operand fields and execute that one instruction
(40_fetch_step.md R88, R89), and where a test places the instruction to be run next. -/

namespace Sys2Proof.Machine

/-- `step() = execute(fetch())` (40_fetch_step.md R88). It never refuses. -/
def step (s : State) : Host.Outcome State Fault Refusal :=
  match fetchInstr s with
  | .error f => raise f
  | .ok (.skipped s') => .next s'
  | .ok (.instruction i s') => exec i s'

/-- The instruction of a table word, placed at `IP`, where the next step fetches it (log entry 21). -/
def State.withFetchWord (s : State) (nbits w : Nat) : State :=
  s.placeBytes (s.reg .ip) (tableBytes nbits w)

end Sys2Proof.Machine
end

