-- ==== Sys2Proof/Machine/Driver.lean ====
section
/-! DEFINITION. The driver's side of the block's interfaces (00_scope.md R7, 70_reset_and_hazards.md R177):
construction, the step call with its outcome, a run, and the two read-only accessors. Loading Memory before the first
step is `memWrite8` and `memWrite16` of Machine/Ops.lean. -/

namespace Sys2Proof.Machine

/-- Construction `CPU(memory)` on a Memory of `N` bytes holding `memInit` (70_reset_and_hazards.md R170); refused when
a parameter is outside its range (00_scope.md R5, the spec's decision D8, log entry 2). -/
def construct (cfg : Config) (memInit : Nat → Byte) : Host.Outcome State Fault Refusal :=
  if cfg.Wf then .next (State.constructed cfg (memOfImage cfg.memLen memInit)) else .refused .parametersOutOfRange

/-- What a `step()` call hands back to the driver (00_scope.md R10). -/
inductive StepReport where
  | ok
  | fault (f : Fault)
  | refused (r : Refusal)
deriving DecidableEq, Repr

/-- A `step()` call as the driver sees it: after a fault the state is what it was before (00_scope.md R10,
40_fetch_step.md R91; the spec's decision D5, log entry 7). -/
def driverStep (s : State) : State × StepReport :=
  match step s with
  | .next s' => (s', .ok)
  | .fault f => (s, .fault f)
  | .refused r => (s, .refused r)

/-- The result of a run: the state after the last `Ok` step, how many there were, and how it ended
(70_reset_and_hazards.md R173). -/
structure RunResult where
  state : State
  okSteps : Nat
  report : StepReport
deriving DecidableEq, Repr

/-- A run of at most `k` step calls, ending early at the first that does not return `Ok`
(70_reset_and_hazards.md R173; the spec's decision D15, log entry 23). -/
def run : Nat → State → RunResult
  | 0, s => ⟨s, 0, .ok⟩
  | k + 1, s =>
    match driverStep s with
    | (s', .ok) => let r := run k s'; { r with okSteps := r.okSteps + 1 }
    | (s', report) => ⟨s', 0, report⟩

/-- The driver's read of a register by name; an unknown name is `InvalidRegister` (10_state.md R24, R143;
the spec's decision D24, log entry 16). -/
def readRegister (s : State) (name : String) : Except Fault Word :=
  match regOfName name with
  | some r => .ok (s.reg r)
  | none => .error (.invalidRegister (.name name))

/-- The driver's read of a memory window `(a, len)`: its bytes, or `MemoryFault` when it is not inside Memory
(20_memory.md R57, the spec's decision D17). DESIGN CHOICE: the width and kind that fault carries (log entry 15). -/
def readWindow (s : State) (a len : Int) : Except Fault (List Byte) :=
  if 0 ≤ a ∧ 0 ≤ len ∧ a + len ≤ s.cfg.memLen then
    .ok ((List.range len.toNat).map fun k => memByte s.mem (a.toNat + k))
  else .error (.memoryFault a .byte .read)

end Sys2Proof.Machine
end

