-- ==== Sys2Proof/WellFormed.lean ====
section
/-! DEFINITION. Which instructions are well-formed: every operand byte is legal. "Operand bytes have no illegal values
except the raw index of `ADD_REG_REG`" (30_encoding.md R72), so the two raw indices are the only checks. An
instruction that fails them still decodes, and raises `InvalidRegister` when it is executed (42_add.md R110). -/

namespace Sys2Proof

/-- A raw register index is legal: it names one of the twelve registers (10_state.md R26). -/
def rawIndexLegal (b : Byte) : Bool := decide (b.toNat < 12)

/-- Every operand byte of the instruction is legal (30_encoding.md R70, R72). -/
def Instr.wellFormed : Instr → Bool
  | .movLitReg _ _ => true
  | .movRegReg _ _ => true
  | .movRegMem _ _ => true
  | .movMemReg _ _ => true
  | .addRegReg regA regB => rawIndexLegal regA && rawIndexLegal regB
  | .jmpNotEq _ _ => true
  | .pshLit _ => true
  | .pshReg _ => true
  | .pop _ => true

end Sys2Proof
end

