-- ==== Sys2Proof/Safety.lean ====
section
/-! DEFINITION. What counts as a sound state and a safe run, and the terms the statements are written in: the
invariant, what an instruction may change, what it may fault with, and how its bytes lie in Memory. -/

namespace Sys2Proof.Machine

/-- The invariant of the machine: the parameters lie in the ranges of 00_scope.md R5, and Memory is in canonical form
with every cell inside `[0, N)` (20_memory.md R40). -/
abbrev State.Inv (s : State) : Prop :=
  s.cfg.Wf ∧ Memory.wf s.mem = true ∧ Memory.within s.cfg.memLen s.mem = true

/-- The byte of Memory at a word address. -/
def State.byteAt (s : State) (a : Word) : Byte := memByte s.mem a.toNat

/-- The big-endian word at an address as a number, `mem[a] * 256 + mem[a+1]` (20_memory.md R43). -/
def State.wordAt (s : State) (a : Nat) : Nat := (memByte s.mem a).toNat * 256 + (memByte s.mem (a + 1)).toNat

/-- `t` differs from `s` at most in the registers of `dests` and, where `stored` is an address, in the two bytes from
it on: every other register, every other byte of Memory and the parameters are unchanged. -/
def ChangesOnly (s t : State) (dests : List Reg) (stored : Option Nat) : Prop :=
  t.cfg = s.cfg ∧ (∀ r, r ∉ dests → t.reg r = s.reg r) ∧
    ∀ a, (∀ b, stored = some b → a ≠ b ∧ a ≠ b + 1) → memByte t.mem a = memByte s.mem a

end Sys2Proof.Machine

namespace Sys2Proof

open Sys2Proof.Machine

/-- The registers the execute phase of an instruction may write (10_state.md R38). -/
def Instr.dests : Instr → List Reg
  | .movLitReg _ reg => [wrapReg reg]
  | .movRegReg _ regTo => [wrapReg regTo]
  | .movRegMem _ _ => []
  | .movMemReg _ reg => [wrapReg reg]
  | .addRegReg _ _ => [.acc]
  | .jmpNotEq _ _ => [.ip]
  | .pshLit _ => [.sp]
  | .pshReg _ => [.sp]
  | .pop reg => [.sp, wrapReg reg]

/-- The address an instruction stores a word at, where it stores one (10_state.md R38). -/
def Instr.storeAddr (s : State) : Instr → Option Nat
  | .movRegMem _ addr16 => some addr16.toNat
  | .pshLit _ => some (s.reg .sp).toNat
  | .pshReg _ => some (s.reg .sp).toNat
  | .movLitReg _ _ => none
  | .movRegReg _ _ => none
  | .movMemReg _ _ => none
  | .addRegReg _ _ => none
  | .jmpNotEq _ _ => none
  | .pop _ => none

/-- The registers an instruction names through its register operands (10_state.md R38, column "op"). -/
def Instr.operandRegs : Instr → List Reg
  | .movLitReg _ reg => [wrapReg reg]
  | .movRegReg regFrom regTo => [wrapReg regFrom, wrapReg regTo]
  | .movRegMem reg _ => [wrapReg reg]
  | .movMemReg _ reg => [wrapReg reg]
  | .addRegReg regA regB => [wrapReg regA, wrapReg regB]
  | .jmpNotEq _ _ => []
  | .pshLit _ => []
  | .pshReg reg => [wrapReg reg]
  | .pop reg => [wrapReg reg]

/-- The register an instruction writes through a register operand, if it has such a destination. -/
def Instr.destOperand : Instr → Option Reg
  | .movLitReg _ reg => some (wrapReg reg)
  | .movRegReg _ regTo => some (wrapReg regTo)
  | .movMemReg _ reg => some (wrapReg reg)
  | .pop reg => some (wrapReg reg)
  | .movRegMem _ _ => none
  | .addRegReg _ _ => none
  | .jmpNotEq _ _ => none
  | .pshLit _ => none
  | .pshReg _ => none

/-- The fault matrix of 60_exceptions.md R146, execute phase only (its entries marked D). -/
def Instr.mayRaise : Instr → Fault → Prop
  | .movRegMem _ addr16, f => f = .memoryFault addr16.toNat .word .write
  | .movMemReg addr16 _, f => f = .memoryFault addr16.toNat .word .read
  | .addRegReg regA regB, f =>
    (12 ≤ regA.toNat ∧ f = .invalidRegister (.index regA)) ∨
      (regA.toNat < 12 ∧ 12 ≤ regB.toNat ∧ f = .invalidRegister (.index regB))
  | .pshLit _, f => ∃ sp : Word, f = .memoryFault sp.toNat .word .write ∨ f = .stackOverflow sp
  | .pshReg _, f => ∃ sp : Word, f = .memoryFault sp.toNat .word .write ∨ f = .stackOverflow sp
  | .pop _, f => ∃ sp : Word, f = .stackUnderflow sp
  | .movLitReg _ _, _ => False
  | .movRegReg _ _, _ => False
  | .jmpNotEq _ _, _ => False

end Sys2Proof

namespace Sys2Proof.Machine

/-- The bytes that fetches from `IP` on would visit, the address wrapping as `IP` does (10_state.md R27). -/
def State.codeWindow (s : State) (n : Nat) : List Byte :=
  (List.range n).map fun k => s.byteAt (s.reg .ip + BitVec.ofNat 16 k)

/-- Fetches from an address yield a word stored there: `fetch16` the word, `fetch` its high byte and, at the next
address, its low byte (20_memory.md R55, 40_fetch_step.md R85, R86). The last asks for a Memory length in its range,
so that the next address does not wrap. -/
def State.FetchesWord (t : State) (addr w : Word) : Prop :=
  (∃ u, fetch16 (t.setReg .ip addr) = .ok (w, u)) ∧
  (∃ b u, fetch8 (t.setReg .ip addr) = .ok (b, u) ∧ b.toNat = w.toNat / 256) ∧
  (t.cfg.memLen ≤ 65536 → ∃ b u, fetch8 (t.setReg .ip (addr + 1)) = .ok (b, u) ∧ b.toNat = w.toNat % 256)

/-- The access width of an operand field's fetch (20_memory.md R48). -/
def fieldWidth : FieldKind → Width
  | .reg => .byte
  | .literal => .word
  | .address => .word

/-- The first of some operand fields, laid out from address `a`, that does not lie inside a Memory of `n` bytes:
its address and width (20_memory.md R45, 40_fetch_step.md R85, R86). -/
def firstMisfit (n : Nat) : List FieldKind → Word → Option (Word × Width)
  | [], _ => none
  | k :: ks, a =>
    if a.toNat + fieldSize k ≤ n then firstMisfit n ks (a + BitVec.ofNat 16 (fieldSize k))
    else some (a, fieldWidth k)

/-- `SP` lies where `push` and `pop` alone keep it: `STACK_LOW <= SP <= N - 2` (44_stack.md R135). -/
def State.StackInBounds (s : State) : Prop :=
  s.cfg.stackLow ≤ (s.reg .sp).toNat ∧ (s.reg .sp).toNat + 2 ≤ s.cfg.memLen

/-- Words pushed one after another. -/
def pushAll : List Word → State → Except Fault State
  | [], s => .ok s
  | v :: vs, s => (push v s).bind (pushAll vs)

/-- An outcome whose next state, if it has one, is changed by `f`. -/
def mapNext (f : State → State) : Host.Outcome State Fault Refusal → Host.Outcome State Fault Refusal
  | .next s => .next (f s)
  | .fault e => .fault e
  | .refused r => .refused r

end Sys2Proof.Machine
end

