-- ==== Sys2Proof/Certificates/Slice0/Obligations.lean ====
section
/-! DEFINITION. What is claimed of the machine, one obligation per property, each read from the numbered rules of spec/.
Where a statement rests on one of the spec's own decisions (92_eei_decisions.md), its docstring names the decision and
the log entry that carries it. -/

open Sys2Proof Sys2Proof.Machine

/-! ### Encoding (30_encoding.md) -/

/-- Decoding an encoded instruction gives it back and leaves the bytes after it, for every instruction, every operand
value and every injective `OPC` (R65, R67 to R69). -/
def Obligations.DecodeEncodeRoundTrip : Prop :=
  ∀ (opc : OpcodeMap) (i : Instr) (rest : List Byte), opc.Injective →
    decode opc (encode opc i ++ rest) = .ok (i, rest)

/-- What decodes is the encoding of what it decodes to: no bit of an instruction's bytes is dropped (R67). -/
def Obligations.DecodedBytesAreTheEncoding : Prop :=
  ∀ (opc : OpcodeMap) (bytes rest : List Byte) (i : Instr),
    decode opc bytes = .ok (i, rest) → bytes = encode opc i ++ rest

/-- The seven formats: opcode first, then each field at its place, 16-bit fields high byte first, nothing after (R67). -/
def Obligations.FormatsDecodeInFieldOrder : Prop :=
  ∀ (opc : OpcodeMap) (b c d e : Byte), opc.Injective →
    decode opc [opc.movLitReg, b, c, d] = .ok (.movLitReg (BitVec.ofNat 16 (b.toNat * 256 + c.toNat)) d, []) ∧
    decode opc [opc.movRegReg, b, c] = .ok (.movRegReg b c, []) ∧
    decode opc [opc.movRegMem, b, c, d] = .ok (.movRegMem b (BitVec.ofNat 16 (c.toNat * 256 + d.toNat)), []) ∧
    decode opc [opc.movMemReg, b, c, d] = .ok (.movMemReg (BitVec.ofNat 16 (b.toNat * 256 + c.toNat)) d, []) ∧
    decode opc [opc.addRegReg, b, c] = .ok (.addRegReg b c, []) ∧
    decode opc [opc.jmpNotEq, b, c, d, e] = .ok (.jmpNotEq (BitVec.ofNat 16 (b.toNat * 256 + c.toNat))
      (BitVec.ofNat 16 (d.toNat * 256 + e.toNat)), []) ∧
    decode opc [opc.pshLit, b, c] = .ok (.pshLit (BitVec.ofNat 16 (b.toNat * 256 + c.toNat)), []) ∧
    decode opc [opc.pshReg, b] = .ok (.pshReg b, []) ∧
    decode opc [opc.pop, b] = .ok (.pop b, [])

/-- A few words of 95_test_vectors.md under the default `OPC`. The opcode bytes are the spec's own choice, PRESUMED
(decision D1, log entry 3). -/
def Obligations.DefaultWordsDecode : Prop :=
  decode defaultOpc [0x10, 0x12, 0x34, 0x02] = .ok (.movLitReg 0x1234 0x02, []) ∧
  decode defaultOpc [0x11, 0x02, 0x05] = .ok (.movRegReg 0x02 0x05, []) ∧
  decode defaultOpc [0x12, 0x01, 0x01, 0x00] = .ok (.movRegMem 0x01 0x0100, []) ∧
  decode defaultOpc [0x14, 0x02, 0x03] = .ok (.addRegReg 0x02 0x03, []) ∧
  decode defaultOpc [0x15, 0x00, 0x03, 0x00, 0x00] = .ok (.jmpNotEq 0x0003 0x0000, []) ∧
  decode defaultOpc [0x1A, 0x02] = .ok (.pop 0x02, []) ∧
  decode defaultOpc [0x16] = .error (.unknownOpcode 0x16)

/-- The opcode byte alone selects the instruction and its length; a decode fails only on an empty list, an unknown
opcode or too few bytes (R71, R72). -/
def Obligations.OpcodeByteFixesInstructionAndLength : Prop :=
  ∀ (opc : OpcodeMap) (op : Byte) (bytes : List Byte),
    decode opc [] = .error .noOpcode ∧
    (selectOpcode opc op = none → decode opc (op :: bytes) = .error (.unknownOpcode op)) ∧
    ∀ m, selectOpcode opc op = some m →
      (bytes.length + 1 < instrLength m → decode opc (op :: bytes) = .error .truncated) ∧
      (instrLength m ≤ bytes.length + 1 → ∃ i rest, decode opc (op :: bytes) = .ok (i, rest) ∧ i.mnemonic = m ∧
        bytes.length + 1 = instrLength m + rest.length)

/-- "Every opcode byte value outside the image of `OPC` (247 of the 256 values ...) is an unknown opcode" (R72). -/
def Obligations.UnknownOpcodesNumber247 : Prop :=
  ∀ opc : OpcodeMap, opc.Injective →
    ((List.range 256).filter fun n => selectOpcode opc (BitVec.ofNat 8 n) = none).length = 247

/-! ### Registers and Memory (10_state.md, 20_memory.md) -/

/-- A register write stores `v mod 65536` for any integer and changes no other register, no byte of Memory and no
parameter (R22). -/
def Obligations.RegisterWriteTruncates : Prop :=
  ∀ (s : State) (r : Reg) (v : Int),
    (((s.assign r v).reg r).toNat : Int) = v % 65536 ∧ ChangesOnly s (s.assign r v) [r] none

/-- A wrapped operand byte `b` reads and writes register `b mod 12`: two bytes name one register exactly when they
agree mod 12. The wrap is kept by the spec's decision D3 (log entry 9). -/
def Obligations.WrappedOperandIsRegisterModTwelve : Prop :=
  ∀ (s : State) (b c : Byte) (v : Word),
    regIndex (wrapReg b) = b.toNat % 12 ∧ regOffset (wrapReg b) + 2 ≤ 24 ∧
    (s.setOperand b v).operand c = if b.toNat % 12 = c.toNat % 12 then v else s.operand c

/-- The driver's accessor answers the value of each of the twelve names and `InvalidRegister` for every other string
(R24; the string-keyed accessor is outside the closed names of decision D24, log entry 16). -/
def Obligations.NamedReadKnowsExactlyTheTwelve : Prop :=
  ∀ s : State, (∀ r : Reg, readRegister s (regName r) = .ok (s.reg r)) ∧
    ∀ name : String, (∀ r : Reg, regName r ≠ name) →
      readRegister s name = .error (.invalidRegister (.name name))

/-- "Register storage and program Memory never alias": a register write changes no Memory access, and a Memory write
changes no register (R58). -/
def Obligations.RegistersAndMemoryNeverAlias : Prop :=
  ∀ (s : State) (r : Reg) (v addr w : Word),
    (∀ a, memByte (s.setReg r v).mem a = memByte s.mem a) ∧
    (s.setReg r v).load16 addr = s.load16 addr ∧
    ∀ t, s.store16 addr w = .ok t → ∀ q, t.reg q = s.reg q

/-- `read8` and `read16` inside Memory, and their faults outside it; a read changes nothing, having no state to
return (R41, R43). -/
def Obligations.ReadsAreBigEndianAndBounded : Prop :=
  ∀ (n : Nat) (m : Memory) (a : Int) (k : AccessKind),
    (0 ≤ a → a < n → memRead8 n m a k = .ok (memByte m a.toNat)) ∧
    (¬ (0 ≤ a ∧ a < n) → memRead8 n m a k = .error (.memoryFault a .byte k)) ∧
    (0 ≤ a → a + 1 < n → ∃ w, memRead16 n m a k = .ok w ∧
      w.toNat = (memByte m a.toNat).toNat * 256 + (memByte m (a.toNat + 1)).toNat) ∧
    (¬ (0 ≤ a ∧ a + 1 < n) → memRead16 n m a k = .error (.memoryFault a .word k))

/-- `write16`: the value mod 65536, high byte at the address, low byte after it, every other byte unchanged, legal at
every address with both bytes inside Memory; `MemoryFault` otherwise (R44). -/
def Obligations.WordWriteStoresHighByteFirst : Prop :=
  ∀ (n : Nat) (m : Memory) (a v : Int),
    (0 ≤ a → a + 1 < n → ∃ m', memWrite16 n m a v = .ok m' ∧
      ((memByte m' a.toNat).toNat : Int) = v % 65536 / 256 ∧
      ((memByte m' (a.toNat + 1)).toNat : Int) = v % 256 ∧
      ∀ c, c ≠ a.toNat → c ≠ a.toNat + 1 → memByte m' c = memByte m c) ∧
    (¬ (0 ≤ a ∧ a + 1 < n) → memWrite16 n m a v = .error (.memoryFault a .word .write))

/-- `write8`, the loader's byte write: the value mod 256 at one address, `MemoryFault` outside Memory. The truncation
is the spec's decision D18 (log entry 14). -/
def Obligations.LoaderByteWrite : Prop :=
  ∀ (n : Nat) (m : Memory) (a v : Int),
    (0 ≤ a → a < n → ∃ m', memWrite8 n m a v = .ok m' ∧ ((memByte m' a.toNat).toNat : Int) = v % 256 ∧
      ∀ c, c ≠ a.toNat → memByte m' c = memByte m c) ∧
    (¬ (0 ≤ a ∧ a < n) → memWrite8 n m a v = .error (.memoryFault a .byte .write))

/-- "overlapping words share a byte": after two overlapping word writes the lower word keeps its high byte and takes
the other word's high byte as its low byte (R46). -/
def Obligations.OverlappingWordsShareAByte : Prop :=
  ∀ (n : Nat) (m m1 m2 : Memory) (a : Int) (v w : Word) (k : AccessKind),
    memWrite16 n m a v.toNat = .ok m1 → memWrite16 n m1 (a + 1) w.toNat = .ok m2 →
      ∃ x, memRead16 n m2 a k = .ok x ∧ x.toNat = v.toNat / 256 * 256 + w.toNat / 256

/-! ### Reset and the driver (10_state.md, 70_reset_and_hazards.md) -/

/-- Construction over any in-range parameters and any `MEM_INIT`: `IP = 0`, `SP = FP = N - 2`, the other registers 0,
Memory as the driver left it; out-of-range parameters are refused (R37, R170). The zeros of `ACC` and `R1` to `R8` are
the spec's decision D9 (log entry 5), the refusal its decision D8, the free `MEM_INIT` its decision D10 (log entry 6). -/
def Obligations.ConstructionSetsResetValues : Prop :=
  ∀ (cfg : Config) (memInit : Nat → Byte),
    (cfg.Wf → ∃ s, construct cfg memInit = .next s ∧ s.cfg = cfg ∧ s.reg .ip = 0 ∧
      (s.reg .sp).toNat + 2 = cfg.memLen ∧ (s.reg .fp).toNat + 2 = cfg.memLen ∧
      (∀ r, regIndex r ≠ 0 → regIndex r < 10 → s.reg r = 0) ∧
      ∀ a, a < cfg.memLen → memByte s.mem a = memInit a) ∧
    (¬ cfg.Wf → construct cfg memInit = .refused .parametersOutOfRange)

/-- The model's reset state is construction over the default parameters with every byte of Memory 0. The instance
(`N = 65536`, default `OPC`, `fault` mode) and the zero Memory are the model's choice (log entries 2, 3, 4, 6). -/
def Obligations.ResetIsDefaultConstruction : Prop :=
  construct defaultConfig (fun _ => 0) = .next State.reset

/-- The invariant holds after every construction, and so at reset. -/
def Obligations.ConstructionMeetsInvariant : Prop :=
  State.reset.Inv ∧ ∀ (cfg : Config) (memInit : Nat → Byte) (s : State),
    construct cfg memInit = .next s → s.Inv

/-- A memory window inside Memory yields its bytes, any other `MemoryFault` (R57, the spec's decision D17; which width
and kind that fault reports is the model's choice, log entry 15, and is not stated here). -/
def Obligations.MemoryWindowRead : Prop :=
  ∀ (s : State) (a len : Int),
    (0 ≤ a → 0 ≤ len → a + len ≤ s.cfg.memLen → ∃ bs, readWindow s a len = .ok bs ∧
      (bs.length : Int) = len ∧ ∀ k, k < bs.length → bs[k]? = some (memByte s.mem (a.toNat + k))) ∧
    (¬ (0 ≤ a ∧ 0 ≤ len ∧ a + len ≤ s.cfg.memLen) → ∃ w k, readWindow s a len = .error (.memoryFault a w k))

/-! ### Fetch and step (40_fetch_step.md) -/

/-- `fetch16()` whole: one 16-bit access at `IP`, big-endian, then `IP + 2` mod 65536; at the last byte of Memory it
faults instead of wrapping and moves nothing (R86). -/
def Obligations.FetchWordReadsThenAdvances : Prop :=
  ∀ s : State,
    ((s.reg .ip).toNat + 1 < s.cfg.memLen → ∃ w t, fetch16 s = .ok (w, t) ∧
      w.toNat = s.wordAt (s.reg .ip).toNat ∧ (t.reg .ip).toNat = ((s.reg .ip).toNat + 2) % 65536 ∧
      ChangesOnly s t [.ip] none) ∧
    (s.cfg.memLen ≤ (s.reg .ip).toNat + 1 → fetch16 s = .error (.memoryFault (s.reg .ip).toNat .word .fetch))

/-- `fetch()` and `fetchRegisterIndex()`: the byte at `IP`, reduced mod 12 by the latter, then `IP + 1` mod 65536. The
wrap of `IP` at 0xFFFF is the spec's decision D12 (log entry 12), that of the index its decision D3 (log entry 9). -/
def Obligations.FetchByteReadsThenAdvances : Prop :=
  ∀ s : State,
    ((s.reg .ip).toNat < s.cfg.memLen → ∃ r t, fetch8 s = .ok (s.byteAt (s.reg .ip), t) ∧
      fetchRegisterIndex s = .ok (r, t) ∧ regIndex r = (s.byteAt (s.reg .ip)).toNat % 12 ∧
      (t.reg .ip).toNat = ((s.reg .ip).toNat + 1) % 65536 ∧ ChangesOnly s t [.ip] none) ∧
    (s.cfg.memLen ≤ (s.reg .ip).toNat →
      fetch8 s = .error (.memoryFault (s.reg .ip).toNat .byte .fetch) ∧
      fetchRegisterIndex s = .error (.memoryFault (s.reg .ip).toNat .byte .fetch))

/-- A step runs the decoded instruction: when the bytes from `IP` on decode to `i`, well-formed or not, and each of its
fields lies inside Memory, the step is `exec i` on the state with `IP` past the instruction (R88, R89). The bytes are
read with the address wrapping as `IP` does, so an instruction that straddles 0xFFFF is covered. -/
def Obligations.StepRunsDecodedInstruction : Prop :=
  ∀ (s : State) (i : Instr) (rest : List Byte), s.cfg.memLen ≤ 65536 →
    decode s.cfg.opc (s.codeWindow 5) = .ok (i, rest) →
    (s.reg .ip).toNat < s.cfg.memLen →
    firstMisfit s.cfg.memLen (operandFields i.mnemonic) (s.reg .ip + 1) = none →
    step s = exec i (s.setReg .ip (s.reg .ip + BitVec.ofNat 16 (instrLength i.mnemonic)))

/-- Fetch faults come first and in operand order: the opcode byte outside Memory, else the first operand field that
does not lie inside it, at its own address and width (R85, R86, R142). The order is the spec's decision D6
(log entry 8). -/
def Obligations.StepFaultsAtFirstUnfetchableField : Prop :=
  ∀ s : State,
    (s.cfg.memLen ≤ (s.reg .ip).toNat → step s = .fault (.memoryFault (s.reg .ip).toNat .byte .fetch)) ∧
    ((s.reg .ip).toNat < s.cfg.memLen → ∀ m a w, selectOpcode s.cfg.opc (s.byteAt (s.reg .ip)) = some m →
      firstMisfit s.cfg.memLen (operandFields m) (s.reg .ip + 1) = some (a, w) →
      step s = .fault (.memoryFault a.toNat w .fetch))

/-- An unknown opcode byte raises `InvalidOpcode` in `fault` mode and only moves `IP` by one in `nop` mode (R90; the
parameter and its values are the spec's decision D2, log entry 4). -/
def Obligations.UnknownOpcodeByMode : Prop :=
  ∀ s : State, (s.reg .ip).toNat < s.cfg.memLen → selectOpcode s.cfg.opc (s.byteAt (s.reg .ip)) = none →
    (s.cfg.unknownOpcodeMode = .fault → step s = .fault (.invalidOpcode (s.byteAt (s.reg .ip)) (s.reg .ip))) ∧
    (s.cfg.unknownOpcodeMode = .nop → ∃ t, step s = .next t ∧
      (t.reg .ip).toNat = ((s.reg .ip).toNat + 1) % 65536 ∧ ChangesOnly s t [.ip] none)

/-- "from every state, `step` either completes or faults": no state is stuck or refused (93_implementation_defined.md
Part 1). -/
def Obligations.StepCompletesOrFaults : Prop :=
  ∀ s : State, (∃ t, step s = .next t) ∨ ∃ f, step s = .fault f

/-- A faulting step leaves the driver's state as it was, and calling `step` again raises the same fault (R91, R148,
R149; the spec's decision D5, log entry 7). -/
def Obligations.FaultingStepChangesNothing : Prop :=
  ∀ (s : State) (f : Fault), step s = .fault f →
    driverStep s = (s, .fault f) ∧ driverStep (driverStep s).1 = driverStep s

/-- A run ends at its first fault, in the state the last `Ok` step left: the run of exactly its `Ok` steps ends in its
state with no fault; when it reports a fault, the step from that state raises it, and more step calls granted to it
change nothing (R173, the spec's decision D15, log entry 23). -/
def Obligations.RunEndsAtFirstFault : Prop :=
  ∀ (k : Nat) (s : State),
    run (run k s).okSteps s =
      { state := (run k s).state, okSteps := (run k s).okSteps, report := .ok } ∧
    ∀ f : Fault, (run k s).report = .fault f →
      (run k s).okSteps < k ∧ step (run k s).state = .fault f ∧ ∀ j, run (k + j) s = run k s

/-! ### The moves (41_mov.md) -/

/-- `MOV_LIT_REG` whole, with the fetch faults of its fields (R100). -/
def Obligations.MovLitRegStep : Prop :=
  ∀ (s : State) (a : Word), s.reg .ip = a →
    (s.cfg.memLen ≤ a.toNat → step s = .fault (.memoryFault a.toNat .byte .fetch)) ∧
    (a.toNat < s.cfg.memLen → s.cfg.opc.Injective → s.byteAt a = s.cfg.opc.movLitReg →
      (s.cfg.memLen ≤ (a + 1).toNat + 1 → step s = .fault (.memoryFault (a + 1).toNat .word .fetch)) ∧
      ((a + 1).toNat + 1 < s.cfg.memLen → s.cfg.memLen ≤ (a + 3).toNat →
        step s = .fault (.memoryFault (a + 3).toNat .byte .fetch)) ∧
      ((a + 1).toNat + 1 < s.cfg.memLen → (a + 3).toNat < s.cfg.memLen →
        ∀ d : Reg, regIndex d = (s.byteAt (a + 3)).toNat % 12 →
          ∃ t, step s = .next t ∧ (t.reg d).toNat = s.wordAt (a + 1).toNat ∧
            (d ≠ .ip → t.reg .ip = a + 4) ∧ ChangesOnly s t [.ip, d] none))

/-- `MOV_REG_REG` whole, with its fetch faults (R101). That `IP` as the source reads as `a + 3` rests on the spec's
decision D11 (log entry 11). -/
def Obligations.MovRegRegStep : Prop :=
  ∀ (s : State) (a : Word), s.reg .ip = a → a.toNat < s.cfg.memLen → s.cfg.opc.Injective →
    s.byteAt a = s.cfg.opc.movRegReg →
    (s.cfg.memLen ≤ (a + 1).toNat → step s = .fault (.memoryFault (a + 1).toNat .byte .fetch)) ∧
    ((a + 1).toNat < s.cfg.memLen → s.cfg.memLen ≤ (a + 2).toNat →
      step s = .fault (.memoryFault (a + 2).toNat .byte .fetch)) ∧
    ((a + 1).toNat < s.cfg.memLen → (a + 2).toNat < s.cfg.memLen →
      ∀ src d : Reg, regIndex src = (s.byteAt (a + 1)).toNat % 12 → regIndex d = (s.byteAt (a + 2)).toNat % 12 →
        ∃ t, step s = .next t ∧ t.reg d = (if src = .ip then a + 3 else s.reg src) ∧
          (d ≠ .ip → t.reg .ip = a + 3) ∧ ChangesOnly s t [.ip, d] none)

/-- `MOV_REG_MEM` whole, with its fetch faults and its data fault (R102). That `IP` as the source reads as `a + 4`
rests on the spec's decision D11 (log entry 11). -/
def Obligations.MovRegMemStep : Prop :=
  ∀ (s : State) (a : Word), s.reg .ip = a → a.toNat < s.cfg.memLen → s.cfg.opc.Injective →
    s.byteAt a = s.cfg.opc.movRegMem →
    (s.cfg.memLen ≤ (a + 1).toNat → step s = .fault (.memoryFault (a + 1).toNat .byte .fetch)) ∧
    ((a + 1).toNat < s.cfg.memLen → s.cfg.memLen ≤ (a + 2).toNat + 1 →
      step s = .fault (.memoryFault (a + 2).toNat .word .fetch)) ∧
    ((a + 1).toNat < s.cfg.memLen → (a + 2).toNat + 1 < s.cfg.memLen →
      ∀ (src : Reg) (addr : Nat), regIndex src = (s.byteAt (a + 1)).toNat % 12 → addr = s.wordAt (a + 2).toNat →
        (s.cfg.memLen ≤ addr + 1 → step s = .fault (.memoryFault addr .word .write)) ∧
        (addr + 1 < s.cfg.memLen → ∃ t, step s = .next t ∧
          t.wordAt addr = (if src = .ip then a + 4 else s.reg src).toNat ∧ t.reg .ip = a + 4 ∧
          ChangesOnly s t [.ip] (some addr)))

/-- `MOV_MEM_REG` whole, with its fetch faults and its data fault (R103). -/
def Obligations.MovMemRegStep : Prop :=
  ∀ (s : State) (a : Word), s.reg .ip = a →
    (s.cfg.memLen ≤ a.toNat → step s = .fault (.memoryFault a.toNat .byte .fetch)) ∧
    (a.toNat < s.cfg.memLen → s.cfg.opc.Injective → s.byteAt a = s.cfg.opc.movMemReg →
      (s.cfg.memLen ≤ (a + 1).toNat + 1 → step s = .fault (.memoryFault (a + 1).toNat .word .fetch)) ∧
      ((a + 1).toNat + 1 < s.cfg.memLen → s.cfg.memLen ≤ (a + 3).toNat →
        step s = .fault (.memoryFault (a + 3).toNat .byte .fetch)) ∧
      ((a + 1).toNat + 1 < s.cfg.memLen → (a + 3).toNat < s.cfg.memLen →
        ∀ (d : Reg) (addr : Nat), regIndex d = (s.byteAt (a + 3)).toNat % 12 → addr = s.wordAt (a + 1).toNat →
          (s.cfg.memLen ≤ addr + 1 → step s = .fault (.memoryFault addr .word .read)) ∧
          (addr + 1 < s.cfg.memLen → ∃ t, step s = .next t ∧ (t.reg d).toNat = s.wordAt addr ∧
            (d ≠ .ip → t.reg .ip = a + 4) ∧ ChangesOnly s t [.ip, d] none)))

/-- The execute phase of `MOV_LIT_REG` and `MOV_REG_REG` completes in every state: the destination takes the literal or
the source's value and nothing else changes (R100, R101). -/
def Obligations.RegisterMovesComplete : Prop :=
  ∀ s : State,
    (∀ (imm : Word) (reg : Byte), ∃ t, exec (.movLitReg imm reg) s = .next t ∧ t.operand reg = imm ∧
      ChangesOnly s t [wrapReg reg] none) ∧
    ∀ regFrom regTo : Byte, ∃ t, exec (.movRegReg regFrom regTo) s = .next t ∧
      t.operand regTo = s.operand regFrom ∧ ChangesOnly s t [wrapReg regTo] none

/-- The execute phase of `MOV_MEM_REG` and `MOV_REG_MEM` completes whenever both bytes at the address lie inside Memory,
odd addresses included (R47, R102, R103). -/
def Obligations.LoadAndStoreComplete : Prop :=
  ∀ (s : State) (addr : Word) (reg : Byte), addr.toNat + 1 < s.cfg.memLen →
    (∃ t, exec (.movMemReg addr reg) s = .next t ∧ (t.operand reg).toNat = s.wordAt addr.toNat ∧
      ChangesOnly s t [wrapReg reg] none) ∧
    ∃ t, exec (.movRegMem reg addr) s = .next t ∧
      (memByte t.mem addr.toNat).toNat = (s.operand reg).toNat / 256 ∧
      (memByte t.mem (addr.toNat + 1)).toNat = (s.operand reg).toNat % 256 ∧
      ChangesOnly s t [] (some addr.toNat)

/-- Outside Memory, and for a word at its last byte, the load and the store fault (R45, R142). -/
def Obligations.LoadAndStoreFaultOutOfBounds : Prop :=
  ∀ (s : State) (addr : Word) (reg : Byte), s.cfg.memLen ≤ addr.toNat + 1 →
    exec (.movMemReg addr reg) s = .fault (.memoryFault addr.toNat .word .read) ∧
    exec (.movRegMem reg addr) s = .fault (.memoryFault addr.toNat .word .write)

/-- Every store, of `MOV_REG_MEM` and of the two pushes, is seen by the very next fetch of its address: by the word
fetch, and by the byte fetch of either byte, an opcode's fetch being one (R55). -/
def Obligations.StoreIsSeenByNextFetch : Prop :=
  ∀ s t : State,
    (∀ (reg : Byte) (addr : Word), exec (.movRegMem reg addr) s = .next t → t.FetchesWord addr (s.operand reg)) ∧
    (∀ v : Word, exec (.pshLit v) s = .next t → t.FetchesWord (s.reg .sp) v) ∧
    ∀ reg : Byte, exec (.pshReg reg) s = .next t → t.FetchesWord (s.reg .sp) (s.operand reg)

/-! ### Addition and the jump (42_add.md, 43_jmp.md) -/

/-- `ADD_REG_REG` with both indices below 12 completes: `ACC` takes the sum of the two registers mod 65536, read before
`ACC` is written, and nothing else changes (R110). -/
def Obligations.AddWrapsIntoAcc : Prop :=
  ∀ (s : State) (regA regB : Byte) (ra rb : Reg), regIndex ra = regA.toNat → regIndex rb = regB.toNat →
    ∃ t, exec (.addRegReg regA regB) s = .next t ∧
      (t.reg .acc).toNat = ((s.reg ra).toNat + (s.reg rb).toNat) % 65536 ∧ ChangesOnly s t [.acc] none

/-- A raw index of 12 or more raises `InvalidRegister` with that byte, the first operand's before the second's: the
spec's decisions D4 and D6 (log entries 10 and 8). -/
def Obligations.AddRejectsRawIndexFromTwelve : Prop :=
  ∀ (s : State) (regA regB : Byte),
    (12 ≤ regA.toNat → exec (.addRegReg regA regB) s = .fault (.invalidRegister (.index regA))) ∧
    (regA.toNat < 12 → 12 ≤ regB.toNat →
      exec (.addRegReg regA regB) s = .fault (.invalidRegister (.index regB)))

/-- A step over an `ADD_REG_REG` whose bytes lie inside Memory: the sum, with `IP` reading as `a + 3`, or the first
illegal index's fault (R110; the spec's decisions D4, D6 and D11, log entries 10, 8 and 11). -/
def Obligations.AddRegRegStep : Prop :=
  ∀ (s : State) (a : Word) (regA regB : Byte), s.reg .ip = a → s.cfg.opc.Injective → a.toNat < s.cfg.memLen →
    (a + 1).toNat < s.cfg.memLen → (a + 2).toNat < s.cfg.memLen → s.byteAt a = s.cfg.opc.addRegReg →
    s.byteAt (a + 1) = regA → s.byteAt (a + 2) = regB →
    (12 ≤ regA.toNat → step s = .fault (.invalidRegister (.index regA))) ∧
    (regA.toNat < 12 → 12 ≤ regB.toNat → step s = .fault (.invalidRegister (.index regB))) ∧
    (∀ ra rb : Reg, regIndex ra = regA.toNat → regIndex rb = regB.toNat →
      ∃ t, step s = .next t ∧ t.reg .ip = a + 3 ∧
        (t.reg .acc).toNat = ((if ra = .ip then a + 3 else s.reg ra).toNat +
          (if rb = .ip then a + 3 else s.reg rb).toNat) % 65536 ∧ ChangesOnly s t [.ip, .acc] none)

/-- The execute phase of `JMP_NOT_EQ` completes in every state: `IP` takes the target exactly when the literal differs
from `ACC`; the target is not checked (R120). -/
def Obligations.JumpTakenIffNotEqual : Prop :=
  ∀ (s : State) (imm addr : Word), ∃ t, exec (.jmpNotEq imm addr) s = .next t ∧
    t.reg .ip = (if imm.toNat = (s.reg .acc).toNat then s.reg .ip else addr) ∧ ChangesOnly s t [.ip] none

/-- `JMP_NOT_EQ` whole: both operand words are fetched, taken or not, with their faults; then the jump or the next
instruction (R120). -/
def Obligations.JmpNotEqStep : Prop :=
  ∀ (s : State) (a : Word), s.reg .ip = a →
    (s.cfg.memLen ≤ a.toNat → step s = .fault (.memoryFault a.toNat .byte .fetch)) ∧
    (a.toNat < s.cfg.memLen → s.cfg.opc.Injective → s.byteAt a = s.cfg.opc.jmpNotEq →
      (s.cfg.memLen ≤ (a + 1).toNat + 1 → step s = .fault (.memoryFault (a + 1).toNat .word .fetch)) ∧
      ((a + 1).toNat + 1 < s.cfg.memLen → s.cfg.memLen ≤ (a + 3).toNat + 1 →
        step s = .fault (.memoryFault (a + 3).toNat .word .fetch)) ∧
      ((a + 1).toNat + 1 < s.cfg.memLen → (a + 3).toNat + 1 < s.cfg.memLen →
        ∃ t, step s = .next t ∧ ChangesOnly s t [.ip] none ∧
          (s.wordAt (a + 1).toNat ≠ (s.reg .acc).toNat → (t.reg .ip).toNat = s.wordAt (a + 3).toNat) ∧
          (s.wordAt (a + 1).toNat = (s.reg .acc).toNat → t.reg .ip = a + 5)))

/-! ### The stack (44_stack.md) -/

/-- The execute phase of `PSH_LIT` and `PSH_REG` completes when the slot lies inside Memory and `SP - 2` is not below
`STACK_LOW`: the word is written at `SP`, high byte first, and `SP` moves down by 2 (R130, R132, R133). The exact bounds
are the spec's decision D7 (log entry 13). -/
def Obligations.PushesComplete : Prop :=
  ∀ (s : State) (sp : Nat), (s.reg .sp).toNat = sp → sp + 1 < s.cfg.memLen → s.cfg.stackLow + 2 ≤ sp →
    (∀ v : Word, ∃ t, exec (.pshLit v) s = .next t ∧ (t.reg .sp).toNat = sp - 2 ∧
      (memByte t.mem sp).toNat = v.toNat / 256 ∧ (memByte t.mem (sp + 1)).toNat = v.toNat % 256 ∧
      ChangesOnly s t [.sp] (some sp)) ∧
    ∀ reg : Byte, ∃ t, exec (.pshReg reg) s = .next t ∧ (t.reg .sp).toNat = sp - 2 ∧
      (memByte t.mem sp).toNat = (s.operand reg).toNat / 256 ∧
      (memByte t.mem (sp + 1)).toNat = (s.operand reg).toNat % 256 ∧ ChangesOnly s t [.sp] (some sp)

/-- A push faults with `MemoryFault` when its slot is not inside Memory, else with `StackOverflow` when it would leave
`SP` below `STACK_LOW` (R130, R144; the spec's decisions D6 and D7, log entries 8 and 13). -/
def Obligations.PushFaults : Prop :=
  ∀ (s : State) (v : Word) (reg : Byte),
    (s.cfg.memLen ≤ (s.reg .sp).toNat + 1 →
      exec (.pshLit v) s = .fault (.memoryFault (s.reg .sp).toNat .word .write) ∧
      exec (.pshReg reg) s = .fault (.memoryFault (s.reg .sp).toNat .word .write)) ∧
    ((s.reg .sp).toNat + 1 < s.cfg.memLen → (s.reg .sp).toNat < s.cfg.stackLow + 2 →
      exec (.pshLit v) s = .fault (.stackOverflow (s.reg .sp)) ∧
      exec (.pshReg reg) s = .fault (.stackOverflow (s.reg .sp)))

/-- The execute phase of `POP` completes when `SP + 2` is at most `N - 2`: the register takes the word at `SP + 2`,
`SP` moves up by 2 unless it is that register, Memory keeps the word (R131, R134). The exact bound is the spec's
decision D7 (log entry 13). -/
def Obligations.PopCompletes : Prop :=
  ∀ (s : State) (reg : Byte) (sp : Nat), s.cfg.memLen ≤ 65536 → (s.reg .sp).toNat = sp →
    sp + 2 + 2 ≤ s.cfg.memLen →
    ∃ t, exec (.pop reg) s = .next t ∧ (t.operand reg).toNat = s.wordAt (sp + 2) ∧
      (wrapReg reg ≠ .sp → (t.reg .sp).toNat = sp + 2) ∧ ChangesOnly s t [.sp, wrapReg reg] none

/-- A pop that would leave `SP` above `N - 2` raises `StackUnderflow`, checked on the integer and never a `MemoryFault`
(R131, R145; the spec's decision D7, log entry 13). -/
def Obligations.PopUnderflows : Prop :=
  ∀ (s : State) (reg : Byte), s.cfg.memLen < (s.reg .sp).toNat + 4 →
    exec (.pop reg) s = .fault (.stackUnderflow (s.reg .sp))

/-- Steps over `PSH_LIT`, `PSH_REG` and `POP` whose bytes lie inside Memory and whose slot is legal (R132, R133, R134;
the bounds are decision D7, `IP` as a source decision D11: log entries 13 and 11). -/
def Obligations.StackInstructionSteps : Prop :=
  ∀ (s : State) (a : Word) (sp : Nat), s.reg .ip = a → s.cfg.Wf → a.toNat < s.cfg.memLen →
    (s.reg .sp).toNat = sp →
    (s.byteAt a = s.cfg.opc.pshLit → (a + 1).toNat + 1 < s.cfg.memLen →
      sp + 1 < s.cfg.memLen → s.cfg.stackLow + 2 ≤ sp →
      ∃ t, step s = .next t ∧ t.reg .ip = a + 3 ∧ (t.reg .sp).toNat = sp - 2 ∧
        t.wordAt sp = s.wordAt (a + 1).toNat ∧ ChangesOnly s t [.ip, .sp] (some sp)) ∧
    (s.byteAt a = s.cfg.opc.pshReg → (a + 1).toNat < s.cfg.memLen →
      sp + 1 < s.cfg.memLen → s.cfg.stackLow + 2 ≤ sp →
      ∀ src : Reg, regIndex src = (s.byteAt (a + 1)).toNat % 12 →
      ∃ t, step s = .next t ∧ t.reg .ip = a + 2 ∧ (t.reg .sp).toNat = sp - 2 ∧
        t.wordAt sp = (if src = .ip then a + 2 else s.reg src).toNat ∧ ChangesOnly s t [.ip, .sp] (some sp)) ∧
    (s.byteAt a = s.cfg.opc.pop → (a + 1).toNat < s.cfg.memLen → sp + 2 + 2 ≤ s.cfg.memLen →
      ∀ d : Reg, regIndex d = (s.byteAt (a + 1)).toNat % 12 →
      ∃ t, step s = .next t ∧ (t.reg d).toNat = s.wordAt (sp + 2) ∧ (d ≠ .ip → t.reg .ip = a + 2) ∧
        (d ≠ .sp → (t.reg .sp).toNat = sp + 2) ∧ ChangesOnly s t [.ip, .sp, d] none)

/-- LIFO: after a push, a pop with `SP` and the slot's bytes as the push left them, whatever else happened, yields the
pushed word and restores `SP`; two pushes and two pops yield the words in reverse (R136). -/
def Obligations.PushThenPopIsLifo : Prop :=
  (∀ (v : Word) (s s1 s2 : State), push v s = .ok s1 → s2.cfg = s.cfg → s2.reg .sp = s1.reg .sp →
    s2.wordAt (s.reg .sp).toNat = s1.wordAt (s.reg .sp).toNat →
    ∃ s3, pop s2 = .ok (v, s3) ∧ s3.reg .sp = s.reg .sp ∧ ChangesOnly s2 s3 [.sp] none) ∧
  ∀ (v1 v2 : Word) (s s1 s2 : State), push v1 s = .ok s1 → push v2 s1 = .ok s2 →
    ∃ s3 s4, pop s2 = .ok (v2, s3) ∧ pop s3 = .ok (v1, s4) ∧ s4.reg .sp = s.reg .sp

/-- The stack's layout: from the reset `SP`, `k` pushes succeed exactly when they leave `SP` at or above `STACK_LOW`,
and then `SP = N - 2 - 2k` and the `j`-th word lies at `N - 2j` (R137; the bounds are decision D7, log entry 13). -/
def Obligations.StackLayoutAfterPushes : Prop :=
  ∀ (vs : List Word) (s : State), s.cfg.Wf → (s.reg .sp).toNat + 2 = s.cfg.memLen →
    ((∃ t, pushAll vs s = .ok t) ↔ s.cfg.stackLow + 2 * vs.length + 2 ≤ s.cfg.memLen) ∧
    ∀ t, pushAll vs s = .ok t → (t.reg .sp).toNat + 2 + 2 * vs.length = s.cfg.memLen ∧
      ∀ j v, vs[j]? = some v → t.wordAt (s.cfg.memLen - 2 * (j + 1)) = v.toNat

/-- As long as `SP` is changed by `push` and `pop` only, `STACK_LOW <= SP <= N - 2` after every instruction (R135; the
bounds are the spec's decision D7, that explicit writes are unchecked its decision D26, log entry 13). -/
def Obligations.StackPointerStaysInBounds : Prop :=
  ∀ (i : Instr) (s t : State), s.cfg.Wf → s.StackInBounds → i.destOperand ≠ some .sp →
    exec i s = .next t → t.StackInBounds

/-! ### Whole-machine rules -/

/-- The frame of every instruction's execute phase: only its destination registers and the two bytes it stores to may
change; a form that stores nothing leaves all of Memory alone (R38). -/
def Obligations.ExecFrame : Prop :=
  ∀ (i : Instr) (s t : State), exec i s = .next t → ChangesOnly s t i.dests (i.storeAddr s)

/-- The frame of every step: besides `IP`, only what the one instruction it runs may change; an unknown opcode in `nop`
mode changes `IP` alone (R38, R90). The parameters never change. -/
def Obligations.StepFrame : Prop :=
  ∀ s t : State, step s = .next t →
    ChangesOnly s t [.ip] none ∨
      ∃ i s', fetchInstr s = .ok (.instruction i s') ∧ ChangesOnly s t (.ip :: i.dests) (i.storeAddr s)

/-- The fault matrix: a step faults by a fetch, by an unknown opcode in `fault` mode, or with a fault its instruction's
execute phase may raise (R146). -/
def Obligations.StepFaultMatrix : Prop :=
  ∀ (s : State) (f : Fault), step s = .fault f →
    (∃ a w, f = .memoryFault a w .fetch) ∨
    (s.cfg.unknownOpcodeMode = .fault ∧ selectOpcode s.cfg.opc (s.byteAt (s.reg .ip)) = none ∧
      f = .invalidOpcode (s.byteAt (s.reg .ip)) (s.reg .ip)) ∨
    ∃ i s', fetchInstr s = .ok (.instruction i s') ∧ exec i s' = .fault f ∧ i.mayRaise f

/-- Every way `IP` changes: past the instruction, by a taken jump, by an instruction whose last byte selects `IP` as its
destination, or past an unknown opcode in `nop` mode (R121). -/
def Obligations.IpAfterStep : Prop :=
  ∀ (s t : State) (a : Word), s.reg .ip = a → step s = .next t →
    (selectOpcode s.cfg.opc (s.byteAt a) = none ∧ s.cfg.unknownOpcodeMode = .nop ∧ t.reg .ip = a + 1) ∨
    ∃ m, selectOpcode s.cfg.opc (s.byteAt a) = some m ∧
      (t.reg .ip = a + BitVec.ofNat 16 (instrLength m) ∨
       (m = .jmpNotEq ∧ s.wordAt (a + 1).toNat ≠ (s.reg .acc).toNat ∧
         (t.reg .ip).toNat = s.wordAt (a + 3).toNat) ∨
       (m = .movLitReg ∧ (s.byteAt (a + 3)).toNat % 12 = 0 ∧ (t.reg .ip).toNat = s.wordAt (a + 1).toNat) ∨
       (m = .movRegReg ∧ (s.byteAt (a + 2)).toNat % 12 = 0 ∧ t.reg .ip = s.operand (s.byteAt (a + 1))) ∨
       (m = .movMemReg ∧ (s.byteAt (a + 3)).toNat % 12 = 0 ∧
         (t.reg .ip).toNat = s.wordAt (s.wordAt (a + 1).toNat)) ∨
       (m = .pop ∧ (s.byteAt (a + 1)).toNat % 12 = 0 ∧ (t.reg .ip).toNat = s.wordAt ((s.reg .sp).toNat + 2)))

/-- "No instruction reads or writes any of them implicitly": changing one of `R1` to `R8` that an instruction does not
name changes neither its outcome nor anything but that register (R29). -/
def Obligations.GeneralRegistersOnlyByOperand : Prop :=
  ∀ (s : State) (r : Reg) (v : Word), 2 ≤ regIndex r → regIndex r ≤ 9 →
    (∀ i : Instr, r ∉ i.operandRegs → exec i (s.setReg r v) = mapNext (·.setReg r v) (exec i s)) ∧
    ∀ i s', fetchInstr s = .ok (.instruction i s') → r ∉ i.operandRegs →
      step (s.setReg r v) = mapNext (·.setReg r v) (step s)

/-- `FP` is reset with `SP` to `N - 2`, and no stack operation and no instruction reads or writes it but through a
register operand with index 11: none changes it, and changing it changes neither an outcome nor anything but `FP`
(R138, R31). -/
def Obligations.FramePointerOnlyByOperand : Prop :=
  (∀ (cfg : Config) (memInit : Nat → Byte) (s : State), construct cfg memInit = .next s →
    (s.reg .fp).toNat = cfg.memLen - 2 ∧ s.reg .fp = s.reg .sp) ∧
  (∀ (v : Word) (s t : State), push v s = .ok t → t.reg .fp = s.reg .fp) ∧
  (∀ (v : Word) (s t : State), pop s = .ok (v, t) → t.reg .fp = s.reg .fp) ∧
  (∀ (i : Instr) (s t : State), i.destOperand ≠ some .fp → exec i s = .next t → t.reg .fp = s.reg .fp) ∧
  (∀ (s t : State), step s = .next t → t.reg .fp ≠ s.reg .fp →
    ∃ i s', fetchInstr s = .ok (.instruction i s') ∧ ∃ d, i.destOperand = some d ∧ regIndex d = 11) ∧
  ∀ (s : State) (r : Reg) (x : Word), regIndex r = 11 →
    (∀ v : Word, push v (s.setReg r x) = (push v s).map (·.setReg r x)) ∧
    pop (s.setReg r x) = (pop s).map (fun (v, t) => (v, t.setReg r x)) ∧
    (∀ i : Instr, r ∉ i.operandRegs → exec i (s.setReg r x) = mapNext (·.setReg r x) (exec i s)) ∧
    ∀ i s', fetchInstr s = .ok (.instruction i s') → r ∉ i.operandRegs →
      step (s.setReg r x) = mapNext (·.setReg r x) (step s)

/-- Every step keeps the invariant: the parameters in range, Memory in canonical form and inside `[0, N)` (R5, R40). -/
def Obligations.StepKeepsInvariant : Prop :=
  ∀ s t : State, s.Inv → step s = .next t → t.Inv

/-- Every run, of any length and from any state that meets the invariant, ends in a state that meets it, with the
parameters it started with (R5, R40, R173). -/
def Obligations.RunKeepsInvariant : Prop :=
  ∀ (k : Nat) (s : State), s.Inv → (run k s).state.Inv ∧ (run k s).state.cfg = s.cfg
end

