-- ==== Sys2Proof/Laws/Bytes.lean ====
section
/-! SUPPORT. Joining and splitting words, and narrowing integers. -/

namespace Sys2Proof.Machine

theorem joinBytes_toNat (hi lo : Byte) : (joinBytes hi lo).toNat = hi.toNat * 256 + lo.toNat := by
  have := lo.isLt
  rw [joinBytes, BitVec.toNat_append, ← Nat.shiftLeft_add_eq_or_of_lt lo.isLt, Nat.shiftLeft_eq]

@[simp] theorem joinBytes_hi_lo (w : Word) : joinBytes (hiByte w) (loByte w) = w := by
  apply BitVec.eq_of_toNat_eq
  rw [joinBytes_toNat]
  have := w.isLt
  simp only [hiByte, loByte, BitVec.extractLsb'_toNat, Nat.shiftRight_eq_div_pow]
  omega

@[simp] theorem hiByte_joinBytes (hi lo : Byte) : hiByte (joinBytes hi lo) = hi := by
  apply BitVec.eq_of_toNat_eq
  have := hi.isLt; have := lo.isLt
  simp only [hiByte, BitVec.extractLsb'_toNat, Nat.shiftRight_eq_div_pow, joinBytes_toNat]
  omega

@[simp] theorem loByte_joinBytes (hi lo : Byte) : loByte (joinBytes hi lo) = lo := by
  apply BitVec.eq_of_toNat_eq
  have := hi.isLt; have := lo.isLt
  simp only [loByte, BitVec.extractLsb'_toNat, Nat.shiftRight_eq_div_pow, joinBytes_toNat]
  omega

theorem hiByte_toNat (w : Word) : (hiByte w).toNat = w.toNat / 256 := by
  have := w.isLt
  simp only [hiByte, BitVec.extractLsb'_toNat, Nat.shiftRight_eq_div_pow]
  omega

theorem loByte_toNat (w : Word) : (loByte w).toNat = w.toNat % 256 := by
  simp only [loByte, BitVec.extractLsb'_toNat, Nat.shiftRight_eq_div_pow]
  omega

theorem truncWord_toNat (v : Int) : ((truncWord v).toNat : Int) = v % 65536 := by
  simp only [truncWord, BitVec.toNat_ofInt]
  omega

@[simp] theorem truncWord_natCast (n : Nat) : truncWord (n : Int) = BitVec.ofNat 16 n := by
  apply BitVec.eq_of_toNat_eq
  have := truncWord_toNat n
  simp only [BitVec.toNat_ofNat]
  omega

@[simp] theorem truncWord_toNat_self (w : Word) : truncWord (w.toNat : Int) = w := by simp

/-- An integer step from a word, narrowed, is the wrapping step. -/
theorem truncWord_add (w : Word) (k : Nat) : truncWord ((w.toNat : Int) + k) = w + BitVec.ofNat 16 k := by
  apply BitVec.eq_of_toNat_eq
  have := truncWord_toNat ((w.toNat : Int) + k)
  simp only [BitVec.toNat_add, BitVec.toNat_ofNat]
  omega

@[simp] theorem truncWord_add_one (w : Word) : truncWord ((w.toNat : Int) + 1) = w + 1 := truncWord_add w 1

@[simp] theorem truncWord_add_two (w : Word) : truncWord ((w.toNat : Int) + 2) = w + 2 := truncWord_add w 2

end Sys2Proof.Machine
end

