-- ==== Sys2Proof/Laws/Decode.lean ====
section
/-! SUPPORT. The opcode map read both ways, and the two takes from a list of bytes (30_encoding.md R68, R69). -/

namespace Sys2Proof

open Sys2Proof.Machine

/-- An injective map's opcode byte selects its mnemonic. -/
theorem selectOpcode_opcodeByte {opc : OpcodeMap} (h : opc.Injective) (m : Mnemonic) :
    selectOpcode opc (opcodeByte opc m) = some m := by
  simp only [OpcodeMap.Injective, OpcodeMap.bytes, List.nodup_cons, List.mem_cons, List.not_mem_nil, or_false,
    not_or] at h
  cases m <;> simp only [selectOpcode, opcodeByte] <;> simp_all [eq_comm]

/-- The byte that selects a mnemonic is that mnemonic's opcode byte. -/
theorem opcodeByte_of_select {opc : OpcodeMap} {b : Byte} {m : Mnemonic} (h : selectOpcode opc b = some m) :
    opcodeByte opc m = b := by
  unfold selectOpcode at h
  split_ifs at h <;> cases h <;> simp_all [opcodeByte]

/-- A byte selects nothing exactly when it is none of the nine opcode bytes. -/
theorem selectOpcode_eq_none (opc : OpcodeMap) (b : Byte) : selectOpcode opc b = none ↔ b ∉ opc.bytes := by
  simp only [OpcodeMap.bytes, List.mem_cons, List.not_mem_nil, or_false, not_or]
  unfold selectOpcode
  split_ifs <;> simp_all

theorem takeByte_eq_ok {l rest : List Byte} {b : Byte} : takeByte l = .ok (b, rest) ↔ l = b :: rest := by
  cases l <;> simp [takeByte]

theorem takeWord_eq_ok {l rest : List Byte} {w : Word} :
    takeWord l = .ok (w, rest) ↔ l = wordField w ++ rest := by
  match l with
  | [] => simp [takeWord, wordField]
  | [_] => simp [takeWord, wordField]
  | hi :: lo :: l =>
    simp only [takeWord, wordField, Except.ok.injEq, Prod.mk.injEq, List.cons_append, List.nil_append,
      List.cons.injEq]
    constructor
    · rintro ⟨rfl, rfl⟩
      simp
    · rintro ⟨rfl, rfl, rfl⟩
      simp

end Sys2Proof
end

