-- ==== Sys2Proof/Laws/Memory.lean ====
section
/-! SUPPORT. The laws of Memory: a byte read after a byte write, and that every memory operation keeps the canonical
form and stays inside `[0, N)`. -/

namespace Sys2Proof.Machine

theorem memByte_erase (m : Memory) (a c : Nat) :
    memByte (memErase m a) c = if c = a then unlistedByte else memByte m c := by
  induction m with
  | nil => simp [memErase, memByte]
  | cons d m ih =>
    simp only [memErase, List.filter_cons] at ih ⊢
    by_cases hd : d.1 = a
    · simp only [hd, bne_self_eq_false, Bool.false_eq_true, if_false, ih, memByte]
      by_cases hc : c = a <;> simp [hc]
      simp [Ne.symm hc]
    · simp only [bne_iff_ne, ne_eq, hd, not_false_iff, if_true, memByte, ih]
      by_cases hc : d.1 = c
      · have : c ≠ a := fun h => hd (hc.trans h)
        simp [hc, this]
      · simp [hc]

theorem memByte_insert (m : Memory) (a c : Nat) (b : Byte) (h : ∀ d ∈ m, d.1 ≠ a) :
    memByte (memInsert a b m) c = if c = a then b else memByte m c := by
  induction m with
  | nil => simp only [memInsert, memByte, eq_comm]
  | cons d m ih =>
    have hd : d.1 ≠ a := h d (by simp)
    have ih := ih fun e he => h e (by simp [he])
    by_cases hlt : a < d.1 <;> by_cases hc : c = a
    · simp [memInsert, hlt, memByte, hc]
    · simp [memInsert, hlt, memByte, hc, Ne.symm hc]
    · subst hc
      simp [memInsert, hlt, memByte, hd, ih]
    · simp [memInsert, hlt, memByte, hc, ih]

theorem memErase_not_mem (m : Memory) (a : Nat) : ∀ d ∈ memErase m a, d.1 ≠ a := by
  intro d hd
  simpa using (List.mem_filter.mp hd).2

/-- A byte read after a byte write: the byte written at that address, the byte that was there at every other. -/
@[simp] theorem memByte_memSet (m : Memory) (a c : Nat) (b : Byte) :
    memByte (memSet m a b) c = if c = a then b else memByte m c := by
  unfold memSet
  split_ifs with hb hc hc
  · simp [memByte_erase, hc, hb]
  · simp [memByte_erase, hc]
  · simp [memByte_insert _ _ _ _ (memErase_not_mem m a), hc]
  · simp [memByte_insert _ _ _ _ (memErase_not_mem m a), memByte_erase, hc]

/-- The canonical form's order, as a pairwise fact. -/
theorem memRising_iff (m : Memory) : memRising m = true ↔ (m.map Prod.fst).Pairwise (· < ·) := by
  induction m with
  | nil => simp [memRising]
  | cons c m ih =>
    cases m with
    | nil => simp [memRising]
    | cons d m =>
      simp only [memRising, Bool.and_eq_true, decide_eq_true_eq, ih, List.map_cons, List.pairwise_cons,
        List.mem_cons, forall_eq_or_imp]
      constructor
      · rintro ⟨hlt, hall, hp⟩
        exact ⟨⟨hlt, fun x hx => hlt.trans (hall x hx)⟩, hall, hp⟩
      · rintro ⟨⟨hlt, _⟩, hall, hp⟩
        exact ⟨hlt, hall, hp⟩

theorem wf_iff (m : Memory) : Memory.wf m = true ↔
    (m.map Prod.fst).Pairwise (· < ·) ∧ ∀ c ∈ m, c.2 ≠ unlistedByte := by
  simp [Memory.wf, memRising_iff, List.all_eq_true]

theorem within_iff (n : Nat) (m : Memory) : Memory.within n m = true ↔ ∀ c ∈ m, c.1 < n := by
  simp [Memory.within, List.all_eq_true]

theorem mem_memErase {m : Memory} {a : Nat} {c : Host.Cell} (h : c ∈ memErase m a) : c ∈ m :=
  (List.mem_filter.mp h).1

theorem mem_memInsert {m : Memory} {a : Nat} {b : Byte} {c : Host.Cell} (h : c ∈ memInsert a b m) :
    c = (a, b) ∨ c ∈ m := by
  induction m with
  | nil => simpa [memInsert] using h
  | cons d m ih =>
    unfold memInsert at h
    split_ifs at h with hlt
    · simpa using h
    · rcases List.mem_cons.mp h with rfl | h
      · simp
      · rcases ih h with h | h <;> simp [h]

theorem memErase_wf {m : Memory} (a : Nat) (h : Memory.wf m = true) : Memory.wf (memErase m a) = true := by
  rw [wf_iff] at h ⊢
  refine ⟨h.1.sublist (List.filter_sublist.map Prod.fst), fun c hc => h.2 c (mem_memErase hc)⟩

theorem memInsert_wf {m : Memory} {a : Nat} {b : Byte} (h : Memory.wf m = true) (hb : b ≠ unlistedByte)
    (ha : ∀ c ∈ m, c.1 ≠ a) : Memory.wf (memInsert a b m) = true := by
  induction m with
  | nil => simp [wf_iff, memInsert, hb]
  | cons d m ih =>
    rw [wf_iff] at h
    have hp := List.pairwise_cons.mp h.1
    have hda : d.1 ≠ a := ha d (by simp)
    have ih := ih (by rw [wf_iff]; exact ⟨hp.2, fun c hc => h.2 c (by simp [hc])⟩)
      fun c hc => ha c (by simp [hc])
    rw [wf_iff] at ih ⊢
    unfold memInsert
    split_ifs with hlt
    · refine ⟨List.pairwise_cons.mpr ⟨fun x hx => ?_, h.1⟩, fun c hc => ?_⟩
      · rcases List.mem_cons.mp (List.map_cons ▸ hx) with rfl | hx
        · exact hlt
        · exact hlt.trans (hp.1 x hx)
      · rcases List.mem_cons.mp hc with rfl | hc
        · exact hb
        · exact h.2 c hc
    · refine ⟨List.pairwise_cons.mpr ⟨fun x hx => ?_, ih.1⟩, fun c hc => ?_⟩
      · obtain ⟨c, hc, rfl⟩ := List.mem_map.mp hx
        rcases mem_memInsert hc with rfl | hc
        · exact lt_of_le_of_ne (not_lt.mp hlt) hda
        · exact hp.1 _ (List.mem_map_of_mem hc)
      · rcases List.mem_cons.mp hc with rfl | hc
        · exact h.2 _ (by simp)
        · exact ih.2 c hc

/-- A byte write keeps the canonical form. -/
theorem memSet_wf {m : Memory} (a : Nat) (b : Byte) (h : Memory.wf m = true) : Memory.wf (memSet m a b) = true := by
  unfold memSet
  split_ifs with hb
  · exact memErase_wf a h
  · exact memInsert_wf (memErase_wf a h) hb (memErase_not_mem m a)

/-- A byte write inside `[0, n)` keeps every cell inside it. -/
theorem memSet_within {m : Memory} {n a : Nat} (b : Byte) (ha : a < n) (h : Memory.within n m = true) :
    Memory.within n (memSet m a b) = true := by
  rw [within_iff] at h ⊢
  intro c hc
  unfold memSet at hc
  split_ifs at hc
  · exact h c (mem_memErase hc)
  · rcases mem_memInsert hc with rfl | hc
    · exact ha
    · exact h c (mem_memErase hc)

/-- An image, as cells, is in canonical form. -/
theorem memOfImage_wf (n : Nat) (image : Nat → Byte) : Memory.wf (memOfImage n image) = true := by
  rw [wf_iff]
  constructor
  · rw [List.pairwise_map, memOfImage, List.pairwise_filterMap]
    refine List.pairwise_lt_range.imp fun hlt c hc d hd => ?_
    split_ifs at hc hd
    cases hc
    cases hd
    exact hlt
  · intro c hc
    obtain ⟨a, _, ha⟩ := List.mem_filterMap.mp hc
    split_ifs at ha with h
    cases ha
    exact h

/-- An image, as cells, lies inside its Memory. -/
theorem memOfImage_within (n : Nat) (image : Nat → Byte) : Memory.within n (memOfImage n image) = true := by
  rw [within_iff]
  intro c hc
  obtain ⟨a, ha, h⟩ := List.mem_filterMap.mp hc
  split_ifs at h
  cases h
  exact List.mem_range.mp ha

/-- Every byte write the loader makes keeps the canonical form and stays inside Memory. -/
theorem memWrite8_keeps {n : Nat} {m m' : Memory} {a v : Int} (h : memWrite8 n m a v = .ok m')
    (hwf : Memory.wf m = true) (hin : Memory.within n m = true) :
    Memory.wf m' = true ∧ Memory.within n m' = true := by
  unfold memWrite8 at h
  split_ifs at h with hb
  cases h
  exact ⟨memSet_wf _ _ hwf, memSet_within _ (by omega) hin⟩

/-- Every word write keeps the canonical form and stays inside Memory. -/
theorem memWrite16_keeps {n : Nat} {m m' : Memory} {a v : Int} (h : memWrite16 n m a v = .ok m')
    (hwf : Memory.wf m = true) (hin : Memory.within n m = true) :
    Memory.wf m' = true ∧ Memory.within n m' = true := by
  unfold memWrite16 at h
  split_ifs at h with hb
  cases h
  exact ⟨memSet_wf _ _ (memSet_wf _ _ hwf), memSet_within _ (by omega) (memSet_within _ (by omega) hin)⟩

end Sys2Proof.Machine
end

