-- ==== Sys2Proof/Laws/State.lean ====
section
/-! SUPPORT. One lemma per field of State per update, and the register read after a register write. -/

namespace Sys2Proof.Machine

@[simp] theorem setReg_cfg (s : State) (r : Reg) (v : Word) : (s.setReg r v).cfg = s.cfg := rfl
@[simp] theorem setReg_mem (s : State) (r : Reg) (v : Word) : (s.setReg r v).mem = s.mem := rfl
@[simp] theorem setReg_regs (s : State) (r : Reg) (v : Word) : (s.setReg r v).regs = regWrite s.regs r v := rfl
@[simp] theorem assign_cfg (s : State) (r : Reg) (v : Int) : (s.assign r v).cfg = s.cfg := rfl
@[simp] theorem assign_mem (s : State) (r : Reg) (v : Int) : (s.assign r v).mem = s.mem := rfl
@[simp] theorem setOperand_cfg (s : State) (b : Byte) (v : Word) : (s.setOperand b v).cfg = s.cfg := rfl
@[simp] theorem setOperand_mem (s : State) (b : Byte) (v : Word) : (s.setOperand b v).mem = s.mem := rfl
@[simp] theorem setMem_cfg (s : State) (m : Memory) : (s.setMem m).cfg = s.cfg := rfl
@[simp] theorem setMem_mem (s : State) (m : Memory) : (s.setMem m).mem = m := rfl
@[simp] theorem setMem_regs (s : State) (m : Memory) : (s.setMem m).regs = s.regs := rfl
@[simp] theorem setMem_reg (s : State) (m : Memory) (r : Reg) : (s.setMem m).reg r = s.reg r := rfl
@[simp] theorem constructed_cfg (c : Config) (m : Memory) : (State.constructed c m).cfg = c := rfl
@[simp] theorem constructed_mem (c : Config) (m : Memory) : (State.constructed c m).mem = m := rfl
@[simp] theorem constructed_regs (c : Config) (m : Memory) : (State.constructed c m).regs = resetRegs c.memLen := rfl

theorem regRead_regWrite (rf : RegFile) (r r' : Reg) (v : Word) :
    regRead (regWrite rf r v) r' = if r' = r then v else regRead rf r' := by
  cases r <;> cases r' <;> rfl

@[simp] theorem setReg_reg (s : State) (r r' : Reg) (v : Word) :
    (s.setReg r v).reg r' = if r' = r then v else s.reg r' :=
  regRead_regWrite s.regs r r' v

theorem assign_reg (s : State) (r r' : Reg) (v : Int) :
    (s.assign r v).reg r' = if r' = r then truncWord v else s.reg r' :=
  setReg_reg s r r' _

/-- A register file is its twelve reads. -/
theorem regFile_ext {rf rf' : RegFile} (h : ∀ r, regRead rf r = regRead rf' r) : rf = rf' := by
  have := h .ip; have := h .acc; have := h .r1; have := h .r2; have := h .r3; have := h .r4
  have := h .r5; have := h .r6; have := h .r7; have := h .r8; have := h .sp; have := h .fp
  cases rf; cases rf'; simp_all [regRead]

/-- A state is its parameters, its registers and its Memory. -/
theorem state_ext {s t : State} (hc : t.cfg = s.cfg) (hr : ∀ r, t.reg r = s.reg r) (hm : t.mem = s.mem) : t = s := by
  have hregs : t.regs = s.regs := regFile_ext hr
  cases s; cases t; simp_all

theorem setReg_comm (s : State) {r r' : Reg} (v v' : Word) (h : r ≠ r') :
    (s.setReg r v).setReg r' v' = (s.setReg r' v').setReg r v := by
  refine state_ext rfl (fun q => ?_) rfl
  simp only [setReg_reg]
  split_ifs <;> simp_all

theorem setReg_setReg (s : State) (r : Reg) (v v' : Word) :
    (s.setReg r v).setReg r v' = s.setReg r v' := by
  refine state_ext rfl (fun q => ?_) rfl
  simp only [setReg_reg]
  split_ifs <;> rfl

@[simp] theorem setReg_setMem (s : State) (r : Reg) (v : Word) (m : Memory) :
    (s.setReg r v).setMem m = (s.setMem m).setReg r v := rfl

end Sys2Proof.Machine
end

