-- ==== Sys2Proof/Laws/Ops.lean ====
section
/-! SUPPORT. What each shared operation can do, said once: its success and its faults. -/

namespace Sys2Proof.Machine

@[simp] theorem commit_ok (s : State) : commit (.ok s) = .next s := rfl
@[simp] theorem commit_error (f : Fault) : commit (.error f) = .fault f := rfl

theorem commit_eq_next {e : Except Fault State} {t : State} : commit e = .next t ↔ e = .ok t := by
  cases e <;> simp

theorem commit_eq_fault {e : Except Fault State} {f : Fault} : commit e = .fault f ↔ e = .error f := by
  cases e <;> simp

theorem commit_ne_refused (e : Except Fault State) (r : Refusal) : commit e ≠ .refused r := by
  cases e <;> simp

@[simp] theorem except_bind_ok {ε α β : Type} (a : α) (f : α → Except ε β) : (Except.ok a >>= f) = f a := rfl
@[simp] theorem except_bind_error {ε α β : Type} (e : ε) (f : α → Except ε β) :
    ((Except.error e : Except ε α) >>= f) = .error e := rfl

theorem except_bind_eq_ok {ε α β : Type} {x : Except ε α} {f : α → Except ε β} {b : β} :
    (x >>= f) = .ok b ↔ ∃ a, x = .ok a ∧ f a = .ok b := by
  cases x <;> simp

theorem except_map_eq_ok {ε α β : Type} {x : Except ε α} {f : α → β} {b : β} :
    x.map f = .ok b ↔ ∃ a, x = .ok a ∧ f a = b := by
  cases x <;> simp [Except.map]

theorem except_map_eq_error {ε α β : Type} {x : Except ε α} {f : α → β} {e : ε} :
    x.map f = .error e ↔ x = .error e := by
  cases x <;> simp [Except.map]

/-- A byte read at a natural address. -/
theorem memRead8_nat (n : Nat) (m : Memory) (a : Nat) (k : AccessKind) :
    memRead8 n m a k = if a < n then .ok (memByte m a) else .error (.memoryFault a .byte k) := by
  unfold memRead8
  split_ifs <;> first | rfl | omega

/-- A word read at a natural address. -/
theorem memRead16_nat (n : Nat) (m : Memory) (a : Nat) (k : AccessKind) :
    memRead16 n m a k = if a + 1 < n then .ok (joinBytes (memByte m a) (memByte m (a + 1)))
      else .error (.memoryFault a .word k) := by
  unfold memRead16
  split_ifs <;> first | rfl | omega

/-- A joined pair of neighbouring bytes is the big-endian word at the first one's address. -/
theorem joinBytes_wordAt (s : State) (a : Nat) :
    (joinBytes (memByte s.mem a) (memByte s.mem (a + 1))).toNat = s.wordAt a :=
  joinBytes_toNat _ _

/-- A register write changes that register alone. -/
theorem setReg_changesOnly (s : State) (r : Reg) (v : Word) : ChangesOnly s (s.setReg r v) [r] none :=
  ⟨rfl, fun q hq => by simp_all, fun _ _ => rfl⟩

/-- A data read either yields the word at its address or faults. -/
theorem load16_eq (s : State) (addr : Word) :
    s.load16 addr = if addr.toNat + 1 < s.cfg.memLen
      then .ok (joinBytes (memByte s.mem addr.toNat) (memByte s.mem (addr.toNat + 1)))
      else .error (.memoryFault addr.toNat .word .read) :=
  memRead16_nat _ _ _ _

/-- A data write either replaces the two bytes at its address or faults. -/
theorem store16_eq (s : State) (addr v : Word) :
    s.store16 addr v = if addr.toNat + 1 < s.cfg.memLen
      then .ok (s.setMem (memSet (memSet s.mem addr.toNat (hiByte v)) (addr.toNat + 1) (loByte v)))
      else .error (.memoryFault addr.toNat .word .write) := by
  unfold State.store16 memWrite16
  split_ifs <;> first | omega | simp [Except.map]

/-- The state after a push that succeeds. -/
theorem push_ok {v : Word} {s : State} (hN : (s.reg .sp).toNat + 1 < s.cfg.memLen)
    (hL : s.cfg.stackLow + 2 ≤ (s.reg .sp).toNat) :
    push v s = .ok ((s.setMem (memSet (memSet s.mem (s.reg .sp).toNat (hiByte v))
      ((s.reg .sp).toNat + 1) (loByte v))).assign .sp (((s.reg .sp).toNat : Int) - 2)) := by
  have h1 : ¬ (((s.reg .sp).toNat : Int) + 1 ≥ s.cfg.memLen) := by omega
  have h2 : ¬ (((s.reg .sp).toNat : Int) - 2 < s.cfg.stackLow) := by omega
  simp only [push, if_neg h1, if_neg h2, store16_eq, if_pos hN, Except.map]

/-- Everything a push can do. -/
theorem push_cases (v : Word) (s : State) :
    ((s.reg .sp).toNat + 1 < s.cfg.memLen ∧ s.cfg.stackLow + 2 ≤ (s.reg .sp).toNat ∧
      push v s = .ok ((s.setMem (memSet (memSet s.mem (s.reg .sp).toNat (hiByte v))
        ((s.reg .sp).toNat + 1) (loByte v))).assign .sp (((s.reg .sp).toNat : Int) - 2))) ∨
    (s.cfg.memLen ≤ (s.reg .sp).toNat + 1 ∧
      push v s = .error (.memoryFault (s.reg .sp).toNat .word .write)) ∨
    ((s.reg .sp).toNat + 1 < s.cfg.memLen ∧ (s.reg .sp).toNat < s.cfg.stackLow + 2 ∧
      push v s = .error (.stackOverflow (s.reg .sp))) := by
  by_cases hN : (s.reg .sp).toNat + 1 < s.cfg.memLen
  · by_cases hL : s.cfg.stackLow + 2 ≤ (s.reg .sp).toNat
    · exact .inl ⟨hN, hL, push_ok hN hL⟩
    · refine .inr (.inr ⟨hN, by omega, ?_⟩)
      simp only [push]
      rw [if_neg (by omega), if_pos (by omega)]
  · refine .inr (.inl ⟨by omega, ?_⟩)
    simp only [push]
    rw [if_pos (by omega)]

/-- The word and the state a pop that succeeds yields. -/
theorem pop_ok {s : State} (h : (s.reg .sp).toNat + 4 ≤ s.cfg.memLen) :
    pop s = .ok (joinBytes (memByte s.mem ((s.reg .sp).toNat + 2)) (memByte s.mem ((s.reg .sp).toNat + 3)),
      s.setReg .sp (s.reg .sp + 2)) := by
  have h1 : ¬ (((s.reg .sp).toNat : Int) + 2 > (s.cfg.memLen : Int) - 2) := by omega
  have hr := memRead16_nat s.cfg.memLen s.mem ((s.reg .sp).toNat + 2) .read
  rw [if_pos (by omega)] at hr
  push_cast at hr
  simp only [pop, if_neg h1, hr, Except.map, State.assign, truncWord_add_two]

/-- Everything a pop can do: it never raises `MemoryFault` (44_stack.md R131). -/
theorem pop_cases (s : State) :
    ((s.reg .sp).toNat + 4 ≤ s.cfg.memLen ∧
      pop s = .ok (joinBytes (memByte s.mem ((s.reg .sp).toNat + 2)) (memByte s.mem ((s.reg .sp).toNat + 3)),
        s.setReg .sp (s.reg .sp + 2))) ∨
    (s.cfg.memLen < (s.reg .sp).toNat + 4 ∧ pop s = .error (.stackUnderflow (s.reg .sp))) := by
  by_cases h : (s.reg .sp).toNat + 4 ≤ s.cfg.memLen
  · exact .inl ⟨h, pop_ok h⟩
  · refine .inr ⟨by omega, ?_⟩
    simp only [pop]
    rw [if_pos (by omega)]

/-- A register index read back from its register. -/
@[simp] theorem regOfIndex_regIndex (r : Reg) : regOfIndex (regIndex r) = some r := by cases r <;> rfl

theorem regIndex_lt (r : Reg) : regIndex r < 12 := by cases r <;> decide

theorem regOfIndex_eq_some {k : Nat} {r : Reg} : regOfIndex k = some r ↔ regIndex r = k := by
  constructor
  · intro h
    unfold regOfIndex at h
    split at h <;> first | (cases h; rfl) | cases h
  · rintro rfl
    simp

theorem regOfIndex_isSome {k : Nat} (h : k < 12) : ∃ r, regOfIndex k = some r := by
  interval_cases k <;> exact ⟨_, rfl⟩

theorem regOfIndex_eq_none {k : Nat} (h : 12 ≤ k) : regOfIndex k = none := by
  obtain ⟨j, rfl⟩ := Nat.exists_eq_add_of_le h
  rw [Nat.add_comm]
  rfl

/-- The wrapped operand byte selects register `b mod 12`. -/
theorem regIndex_wrapReg (b : Byte) : regIndex (wrapReg b) = b.toNat % 12 := by
  obtain ⟨r, hr⟩ := regOfIndex_isSome (Nat.mod_lt b.toNat (by decide : 0 < 12))
  rw [wrapReg, hr, Option.getD_some, regOfIndex_eq_some.mp hr]

/-- The register a wrapped operand byte selects, from its index. -/
theorem wrapReg_eq {b : Byte} {r : Reg} (h : regIndex r = b.toNat % 12) : wrapReg b = r :=
  Option.some.inj ((regOfIndex_eq_some.mpr (regIndex_wrapReg b)).symm.trans (regOfIndex_eq_some.mpr h))

theorem wrapReg_eq_iff (b c : Byte) : wrapReg b = wrapReg c ↔ b.toNat % 12 = c.toNat % 12 :=
  ⟨fun h => by rw [← regIndex_wrapReg, ← regIndex_wrapReg, h],
   fun h => wrapReg_eq (by rw [regIndex_wrapReg, h])⟩

/-- A legal raw index selects the register the wrapped path selects. -/
theorem rawReg_ok {b : Byte} (h : b.toNat < 12) : rawReg b = .ok (wrapReg b) := by
  obtain ⟨r, hr⟩ := regOfIndex_isSome h
  simp [rawReg, wrapReg, Nat.mod_eq_of_lt h, hr]

/-- A raw index of 12 or more is `InvalidRegister`. -/
theorem rawReg_error {b : Byte} (h : 12 ≤ b.toNat) : rawReg b = .error (.invalidRegister (.index b)) := by
  simp [rawReg, regOfIndex_eq_none h]

end Sys2Proof.Machine
end

