-- ==== Sys2Proof/Laws/Fetch.lean ====
section
/-! SUPPORT. What the fetch primitives and the decode phase can do, and everything a step can do. -/

namespace Sys2Proof.Machine

/-- `fetch()` yields the byte at `IP` and moves `IP` by one, or faults. -/
theorem fetch8_eq (s : State) :
    fetch8 s = if (s.reg .ip).toNat < s.cfg.memLen
      then .ok (memByte s.mem (s.reg .ip).toNat, s.setReg .ip (s.reg .ip + 1))
      else .error (.memoryFault (s.reg .ip).toNat .byte .fetch) := by
  simp only [fetch8, memRead8_nat]
  split_ifs <;> simp [Except.map, State.assign]

/-- `fetch16()` yields the word at `IP` and moves `IP` by two, or faults. -/
theorem fetch16_eq (s : State) :
    fetch16 s = if (s.reg .ip).toNat + 1 < s.cfg.memLen
      then .ok (joinBytes (memByte s.mem (s.reg .ip).toNat) (memByte s.mem ((s.reg .ip).toNat + 1)),
        s.setReg .ip (s.reg .ip + 2))
      else .error (.memoryFault (s.reg .ip).toNat .word .fetch) := by
  simp only [fetch16, memRead16_nat]
  split_ifs <;> simp [Except.map, State.assign]

/-- `t` is `s` but for `IP`. -/
def OnlyIp (s t : State) : Prop := ∃ v, t = s.setReg .ip v

theorem onlyIp_trans {s t u : State} (h : OnlyIp s t) (h' : OnlyIp t u) : OnlyIp s u := by
  obtain ⟨v, rfl⟩ := h
  obtain ⟨w, rfl⟩ := h'
  exact ⟨w, setReg_setReg ..⟩

theorem fetch8_onlyIp {s t : State} {b : Byte} (h : fetch8 s = .ok (b, t)) : OnlyIp s t := by
  rw [fetch8_eq] at h
  split_ifs at h
  cases h
  exact ⟨_, rfl⟩

theorem fetch16_onlyIp {s t : State} {w : Word} (h : fetch16 s = .ok (w, t)) : OnlyIp s t := by
  rw [fetch16_eq] at h
  split_ifs at h
  cases h
  exact ⟨_, rfl⟩

/-- A relation the two field fetches keep, the decode phase keeps; and it yields the mnemonic it was given. -/
theorem decodeOperands_keeps {σ ε : Type} {f8 : σ → Except ε (Byte × σ)} {f16 : σ → Except ε (Word × σ)}
    {R : σ → σ → Prop} (trans : ∀ {a b c}, R a b → R b c → R a c)
    (h8 : ∀ {a b} {x : Byte}, f8 a = .ok (x, b) → R a b) (h16 : ∀ {a b} {x : Word}, f16 a = .ok (x, b) → R a b)
    {m : Mnemonic} {st st' : σ} {i : Instr} (h : decodeOperands f8 f16 m st = .ok (i, st')) :
    R st st' ∧ i.mnemonic = m := by
  cases m <;> simp only [decodeOperands, except_bind_eq_ok, Prod.exists, pure, Except.pure,
    Except.ok.injEq, Prod.mk.injEq] at h
  case pshLit | pshReg | pop =>
    obtain ⟨x, a, hx, rfl, rfl⟩ := h
    exact ⟨by first | exact h8 hx | exact h16 hx, rfl⟩
  all_goals
    obtain ⟨x, a, hx, y, b, hy, rfl, rfl⟩ := h
    refine ⟨trans (?_ : R st a) (?_ : R a _), rfl⟩
    · first | exact h8 hx | exact h16 hx
    · first | exact h8 hy | exact h16 hy

/-- Everything a fetch that succeeds can yield: an unknown opcode skipped in `nop` mode, or an instruction, its
opcode byte at `IP`; either way only `IP` has moved. -/
theorem fetchInstr_cases {s : State} {r : Fetched} (h : fetchInstr s = .ok r) :
    (s.reg .ip).toNat < s.cfg.memLen ∧
    ((∃ s', r = .skipped s' ∧ s' = s.setReg .ip (s.reg .ip + 1) ∧ s.cfg.unknownOpcodeMode = .nop ∧
        selectOpcode s.cfg.opc (memByte s.mem (s.reg .ip).toNat) = none) ∨
      ∃ i s', r = .instruction i s' ∧ OnlyIp s s' ∧
        selectOpcode s.cfg.opc (memByte s.mem (s.reg .ip).toNat) = some i.mnemonic ∧
        decodeOperands fetch8 fetch16 i.mnemonic (s.setReg .ip (s.reg .ip + 1)) = .ok (i, s')) := by
  unfold fetchInstr at h
  rw [fetch8_eq] at h
  split_ifs at h with hip
  · refine ⟨hip, ?_⟩
    simp only [except_bind_ok] at h
    cases hsel : selectOpcode s.cfg.opc (memByte s.mem (s.reg .ip).toNat) with
    | none =>
      simp only [hsel, unknownOpcode, setReg_cfg] at h
      cases hmode : s.cfg.unknownOpcodeMode with
      | fault => simp [hmode] at h
      | nop =>
        simp only [hmode, Except.ok.injEq] at h
        exact .inl ⟨_, h.symm, rfl, rfl, rfl⟩
    | some m =>
      simp only [hsel, except_bind_eq_ok, Prod.exists, pure, Except.pure, Except.ok.injEq] at h
      obtain ⟨i, s', hd, rfl⟩ := h
      obtain ⟨ho, rfl⟩ := decodeOperands_keeps (R := OnlyIp) onlyIp_trans fetch8_onlyIp fetch16_onlyIp hd
      exact .inr ⟨i, s', rfl, onlyIp_trans ⟨_, rfl⟩ ho, rfl, hd⟩
  · simp at h

/-! ### The decode phase at a known place -/

theorem fetch8_at {s : State} {a : Word} (h : a.toNat < s.cfg.memLen) :
    fetch8 (s.setReg .ip a) = .ok (s.byteAt a, s.setReg .ip (a + 1)) := by
  rw [fetch8_eq]
  simp [h, setReg_setReg, State.byteAt]

theorem fetch16_at {s : State} {a : Word} (h : a.toNat + 1 < s.cfg.memLen) :
    fetch16 (s.setReg .ip a) = .ok (joinBytes (memByte s.mem a.toNat) (memByte s.mem (a.toNat + 1)),
      s.setReg .ip (a + 2)) := by
  rw [fetch16_eq]
  simp [h, setReg_setReg]

theorem fetch8_beyond {s : State} {a : Word} (h : s.cfg.memLen ≤ a.toNat) :
    fetch8 (s.setReg .ip a) = .error (.memoryFault a.toNat .byte .fetch) := by
  rw [fetch8_eq]
  simp [h]

theorem fetch16_beyond {s : State} {a : Word} (h : s.cfg.memLen ≤ a.toNat + 1) :
    fetch16 (s.setReg .ip a) = .error (.memoryFault a.toNat .word .fetch) := by
  rw [fetch16_eq]
  simp [h]

/-- The fetch of a known opcode is the decode phase of its operand fields. -/
theorem fetchInstr_known {s : State} {m : Mnemonic} (h : (s.reg .ip).toNat < s.cfg.memLen)
    (hs : selectOpcode s.cfg.opc (s.byteAt (s.reg .ip)) = some m) :
    fetchInstr s = (decodeOperands fetch8 fetch16 m (s.setReg .ip (s.reg .ip + 1))).map
      fun (i, s2) => .instruction i s2 := by
  unfold fetchInstr
  rw [fetch8_eq, if_pos h]
  simp only [except_bind_ok]
  unfold State.byteAt at hs
  simp only [hs]
  cases decodeOperands fetch8 fetch16 m (s.setReg .ip (s.reg .ip + 1)) <;> rfl

/-- The fetch of an unknown opcode is decided by the mode. -/
theorem fetchInstr_unknown {s : State} (h : (s.reg .ip).toNat < s.cfg.memLen)
    (hs : selectOpcode s.cfg.opc (s.byteAt (s.reg .ip)) = none) :
    fetchInstr s = unknownOpcode (s.byteAt (s.reg .ip)) (s.reg .ip) (s.setReg .ip (s.reg .ip + 1)) := by
  unfold fetchInstr
  rw [fetch8_eq, if_pos h]
  simp only [except_bind_ok]
  unfold State.byteAt at hs
  simp only [hs]
  rfl

/-- A step whose fetch yields an instruction executes it. -/
theorem step_of_fetch {s s' : State} {i : Instr} (h : fetchInstr s = .ok (.instruction i s')) :
    step s = exec i s' := by
  simp [step, h]

/-- Successive one- and two-byte advances, added up. -/
theorem advance_add (a : Word) : a + 1 + 1 = a + 2 ∧ a + 1 + 2 = a + 3 ∧ a + 2 + 1 = a + 3 ∧ a + 2 + 2 = a + 4 ∧
    a + 3 + 1 = a + 4 ∧ a + 3 + 2 = a + 5 := by
  refine ⟨?_, ?_, ?_, ?_, ?_, ?_⟩ <;> rw [BitVec.add_assoc] <;> rfl

/-- No field misfits exactly when the first lies inside Memory and none of the rest misfits. -/
theorem firstMisfit_eq_none {n : Nat} {k : FieldKind} {ks : List FieldKind} {a : Word} :
    firstMisfit n (k :: ks) a = none ↔
      a.toNat + fieldSize k ≤ n ∧ firstMisfit n ks (a + BitVec.ofNat 16 (fieldSize k)) = none := by
  rw [firstMisfit]
  by_cases h : a.toNat + fieldSize k ≤ n
  · simp [h]
  · simp [h]

/-- The first misfit is the first field when it does not lie inside Memory, else the first of the rest. -/
theorem firstMisfit_eq_some {n : Nat} {k : FieldKind} {ks : List FieldKind} {a : Word} {p : Word × Width} :
    firstMisfit n (k :: ks) a = some p ↔
      (n < a.toNat + fieldSize k ∧ p = (a, fieldWidth k)) ∨
        (a.toNat + fieldSize k ≤ n ∧ firstMisfit n ks (a + BitVec.ofNat 16 (fieldSize k)) = some p) := by
  rw [firstMisfit]
  by_cases h : a.toNat + fieldSize k ≤ n
  · simp [h]
  · simp [h, eq_comm, not_le.mp h]

/-! ### What a step can do -/

/-- Everything a step that answers a next state can have done. -/
theorem step_cases {s t : State} (h : step s = .next t) :
    (t = s.setReg .ip (s.reg .ip + 1) ∧ s.cfg.unknownOpcodeMode = .nop ∧
      selectOpcode s.cfg.opc (memByte s.mem (s.reg .ip).toNat) = none) ∨
    ∃ i s', fetchInstr s = .ok (.instruction i s') ∧ OnlyIp s s' ∧ exec i s' = .next t := by
  unfold step at h
  cases hf : fetchInstr s with
  | error f => simp [hf, raise] at h
  | ok r =>
    rcases (fetchInstr_cases hf).2 with ⟨s', rfl, rfl, hm, hsel⟩ | ⟨i, s', rfl, ho, -⟩
    · simp only [hf, Host.Outcome.next.injEq] at h
      exact .inl ⟨h.symm, hm, hsel⟩
    · simp only [hf] at h
      exact .inr ⟨i, s', rfl, ho, h⟩

end Sys2Proof.Machine
end

