-- ==== Sys2Proof/Laws/PerInstr.lean ====
section
/-! SUPPORT. The shape of every instruction's encoding, one lemma per constructor: its length is the one its opcode
fixes, and its first byte is its opcode byte (30_encoding.md R65, R71). -/

namespace Sys2Proof.Laws.EncodeShape

/-- The encoding has the length of the opcode map and starts with the instruction's opcode byte. -/
def Statement (i : Instr) : Prop :=
  ∀ opc : OpcodeMap, (encode opc i).length = instrLength i.mnemonic ∧
    (encode opc i).head? = some (opcodeByte opc i.mnemonic)

theorem movLitReg (imm16 : Word) (reg : Byte) : Statement (.movLitReg imm16 reg) := fun _ => ⟨rfl, rfl⟩
theorem movRegReg (regFrom regTo : Byte) : Statement (.movRegReg regFrom regTo) := fun _ => ⟨rfl, rfl⟩
theorem movRegMem (reg : Byte) (addr16 : Word) : Statement (.movRegMem reg addr16) := fun _ => ⟨rfl, rfl⟩
theorem movMemReg (addr16 : Word) (reg : Byte) : Statement (.movMemReg addr16 reg) := fun _ => ⟨rfl, rfl⟩
theorem addRegReg (regA regB : Byte) : Statement (.addRegReg regA regB) := fun _ => ⟨rfl, rfl⟩
theorem jmpNotEq (imm16 addr16 : Word) : Statement (.jmpNotEq imm16 addr16) := fun _ => ⟨rfl, rfl⟩
theorem pshLit (imm16 : Word) : Statement (.pshLit imm16) := fun _ => ⟨rfl, rfl⟩
theorem pshReg (reg : Byte) : Statement (.pshReg reg) := fun _ => ⟨rfl, rfl⟩
theorem pop (reg : Byte) : Statement (.pop reg) := fun _ => ⟨rfl, rfl⟩

end Sys2Proof.Laws.EncodeShape
end

