-- ==== Sys2Proof/Tests/Slice0.lean ====
section
/-! SUPPORT. Small tests of the model: what is well-formed, words written out from the encodings, single steps with the
expected results of 95_test_vectors.md (its ids stand in the comments), and for every statement a witness that meets its
hypotheses, each clause at the edge of its range. Nothing here is a statement for the provers. -/

namespace Sys2Proof.Machine.Slice0

open Sys2Proof Sys2Proof.Machine

/-! ### Helpers -/

/-- The default parameters over a Memory of `n` bytes with the low-water mark `low`. -/
def cfgOf (n low : Nat) : Config := { defaultConfig with memLen := n, stackLow := low }

/-- The state after reset over `n` bytes, with `bytes` placed at `ip`, `IP` there, and some registers set. -/
def stateAt (n : Nat) (ip : Word) (bytes : List Byte) (regs : List (Reg × Word)) : State :=
  regs.foldl (fun s p => s.setReg p.1 p.2)
    (((State.constructed (cfgOf n 0) []).setReg .ip ip).placeBytes ip bytes)

/-- A state of a small machine, 32 bytes. -/
def small (ip : Word) (bytes : List Byte) (regs : List (Reg × Word)) : State := stateAt 32 ip bytes regs

/-- The same state with another low-water mark. -/
def withLow (s : State) (low : Nat) : State := { s with cfg := { s.cfg with stackLow := low } }

/-- The same state in `nop` mode. -/
def inNopMode (s : State) : State := { s with cfg := { s.cfg with unknownOpcodeMode := .nop } }

/-- The same state with a word written at an address of Memory. -/
def withWord (s : State) (a : Nat) (hi lo : Byte) : State := s.setMem (memSet (memSet s.mem a hi) (a + 1) lo)

/-- The register values of the next state, if there is one. -/
def regsAfter (o : Host.Outcome State Fault Refusal) (rs : List Reg) : Option (List Word) :=
  match o with
  | .next s => some (rs.map s.reg)
  | .fault _ => none
  | .refused _ => none

/-- The bytes of Memory of the next state, if there is one. -/
def bytesAfter (o : Host.Outcome State Fault Refusal) (as : List Nat) : Option (List Byte) :=
  match o with
  | .next s => some (as.map (memByte s.mem))
  | .fault _ => none
  | .refused _ => none

/-- The fault an outcome reports, if it is one. -/
def faultOf (o : Host.Outcome State Fault Refusal) : Option Fault :=
  match o with
  | .next _ => none
  | .fault f => some f
  | .refused _ => none

/-! ### Parameters and well-formedness -/

theorem test_default_parameters_in_range : defaultConfig.Wf := by decide

/-- An opcode map with two mnemonics on one byte is refused. -/
theorem test_duplicate_opcode_refused : ¬ ({ defaultOpc with pop := 0x10 } : OpcodeMap).Injective := by decide

theorem test_wellFormed_refuses_first_raw_index : (Instr.addRegReg 12 0).wellFormed = false := by decide
theorem test_wellFormed_refuses_second_raw_index : (Instr.addRegReg 0 12).wellFormed = false := by decide
theorem test_wellFormed_accepts_raw_index_eleven : (Instr.addRegReg 11 11).wellFormed = true := by decide
theorem test_wellFormed_accepts_wrapped_byte : (Instr.pop 255).wellFormed = true := by decide

/-! ### Words written out bit by bit from 30_encoding.md R67 and R68 -/

/-- `MOV_LIT_REG 0x1234 R1`: format `LR`. -/
theorem test_decode_movLitReg :
    decode defaultOpc [0b00010000#8, 0b00010010#8, 0b00110100#8, 0b00000010#8] =
      .ok (.movLitReg 0x1234 0x02, []) := by decide

/-- `MOV_REG_REG R1 R4`: format `RR`. -/
theorem test_decode_movRegReg :
    decode defaultOpc [0b00010001#8, 0b00000010#8, 0b00000101#8] = .ok (.movRegReg 0x02 0x05, []) := by decide

/-- `MOV_REG_MEM ACC 0x0100`: format `RA`. -/
theorem test_decode_movRegMem :
    decode defaultOpc [0b00010010#8, 0b00000001#8, 0b00000001#8, 0b00000000#8] =
      .ok (.movRegMem 0x01 0x0100, []) := by decide

/-- `MOV_MEM_REG 0x0100 R1`: format `AR`. -/
theorem test_decode_movMemReg :
    decode defaultOpc [0b00010011#8, 0b00000001#8, 0b00000000#8, 0b00000010#8] =
      .ok (.movMemReg 0x0100 0x02, []) := by decide

/-- `ADD_REG_REG R1 R2`: format `RR`. -/
theorem test_decode_addRegReg :
    decode defaultOpc [0b00010100#8, 0b00000010#8, 0b00000011#8] = .ok (.addRegReg 0x02 0x03, []) := by decide

/-- `JMP_NOT_EQ 0x0003 0x7FF0`: format `LA`. -/
theorem test_decode_jmpNotEq :
    decode defaultOpc [0b00010101#8, 0b00000000#8, 0b00000011#8, 0b01111111#8, 0b11110000#8] =
      .ok (.jmpNotEq 0x0003 0x7FF0, []) := by decide

/-- `PSH_LIT 0x5142`: format `L`. -/
theorem test_decode_pshLit :
    decode defaultOpc [0b00010111#8, 0b01010001#8, 0b01000010#8] = .ok (.pshLit 0x5142, []) := by decide

/-- `PSH_REG R1`: format `R`. -/
theorem test_decode_pshReg :
    decode defaultOpc [0b00011000#8, 0b00000010#8] = .ok (.pshReg 0x02, []) := by decide

/-- `POP R2`: format `R`, a byte after it left over. -/
theorem test_decode_pop :
    decode defaultOpc [0b00011010#8, 0b00000011#8, 0b11111111#8] = .ok (.pop 0x03, [0xFF]) := by decide

/-- The two gaps of the default map, and an instruction that ends too soon. -/
theorem test_decode_refuses_by_name :
    decode defaultOpc [0x16] = .error (.unknownOpcode 0x16) ∧
    decode defaultOpc [0x19] = .error (.unknownOpcode 0x19) ∧
    decode defaultOpc [0x10, 0x12, 0x34] = .error .truncated ∧
    decode defaultOpc [] = .error .noOpcode := by decide

/-- A table word numbers its bits from the first byte: `MOV_LIT_REG 0x1234 R1` is `10 12 34 02`. -/
theorem test_decodeTableWord_numbering :
    decodeTableWord 32 0x02341210 = some (.movLitReg 0x1234 0x02) ∧
    decodeTableWord 8 0x15 = some (.jmpNotEq 0 0) ∧ decodeTableWord 8 0x00 = none := by decide

/-- From reset the placed word is the very next instruction run: `MOV_LIT_REG 0x1234 R1`. -/
theorem test_withFetchWord_runs_next :
    regsAfter (step (State.reset.withFetchWord 32 0x02341210)) [.r1, .ip] = some [0x1234, 4] := by decide

/-- With nothing placed, the first step from reset meets the byte 0 (log entry 21). -/
theorem test_reset_runs_unknown_opcode : faultOf (step State.reset) = some (.invalidOpcode 0 0) := by decide

/-! ### Single steps of 95_test_vectors.md -/

/-- V-MLR3: `10 AB CD FF`, byte FF wraps to R2. -/
theorem test_movLitReg_wraps_operand :
    regsAfter (step (stateAt 65536 0 [0x10, 0xAB, 0xCD, 0xFF] [])) [.r2, .ip] = some [0xABCD, 4] := by decide

/-- V-MLR9: the literal's fetch at 0xFFFF does not wrap. -/
theorem test_movLitReg_fetch_at_top :
    faultOf (step (stateAt 65536 0xFFFE [0x10, 0x12] [])) = some (.memoryFault 0xFFFF .word .fetch) := by decide

/-- V-MRR2: `IP` as the source reads as `a + 3`. -/
theorem test_movRegReg_ip_source :
    regsAfter (step (stateAt 65536 0x10 [0x11, 0x00, 0x04] [])) [.r3, .ip] = some [0x13, 0x13] := by decide

/-- V-MRR6: both bytes wrap, 1A to R1 and 0F to R2. -/
theorem test_movRegReg_wraps_both :
    regsAfter (step (stateAt 65536 0x10 [0x11, 0x1A, 0x0F] [(.r1, 0x1111)])) [.r2, .r1, .ip] =
      some [0x1111, 0x1111, 0x13] := by decide

/-- V-MRM6: a store over the instruction's own operand bytes. -/
theorem test_movRegMem_overwrites_itself :
    bytesAfter (step (stateAt 65536 0x40 [0x12, 0x02, 0x00, 0x41] [(.r1, 0x1A00)])) [0x40, 0x41, 0x42, 0x43] =
      some [0x12, 0x1A, 0x00, 0x41] := by decide

/-- V-MRM3: a word at the last byte of Memory. -/
theorem test_movRegMem_last_byte :
    faultOf (step (stateAt 0x200 0 [0x12, 0x02, 0x01, 0xFF] [(.r1, 0xA1B2)])) =
      some (.memoryFault 0x1FF .word .write) := by decide

/-- V-MMR5: loads its own first two bytes. -/
theorem test_movMemReg_own_bytes :
    regsAfter (step (stateAt 65536 0 [0x13, 0x00, 0x00, 0x04] [])) [.r3, .ip] = some [0x1300, 4] := by decide

/-- V-MMR3: a jump through Memory. -/
theorem test_movMemReg_into_ip :
    regsAfter (step (withWord (stateAt 65536 0 [0x13, 0x01, 0x00, 0x00] []) 0x100 0x03 0x00)) [.ip] =
      some [0x300] := by decide

/-- V-ADD5: `ACC` as a source is read before it is written. -/
theorem test_addRegReg_acc_source :
    regsAfter (step (stateAt 65536 8 [0x14, 0x01, 0x02] [(.acc, 5), (.r1, 7)])) [.acc, .ip] =
      some [0x0C, 0x0B] := by decide

/-- V-ADD2 and V-ADD8: the sum wraps; a second raw index of 12 faults. -/
theorem test_addRegReg_wraps_and_faults :
    regsAfter (step (stateAt 65536 8 [0x14, 0x02, 0x03] [(.r1, 0xFFFF), (.r2, 1)])) [.acc] = some [0] ∧
    faultOf (step (stateAt 65536 8 [0x14, 0x03, 0x0C] [(.r1, 1), (.r2, 2)])) =
      some (.invalidRegister (.index 0x0C)) := by decide

/-- V-JMP6: taken, unsigned, odd target. -/
theorem test_jmpNotEq_taken :
    regsAfter (step (stateAt 65536 0xF [0x15, 0x80, 0x00, 0x7F, 0xFF] [(.acc, 0x7FFF)])) [.ip] =
      some [0x7FFF] := by decide

/-- V-JMP2: not taken. -/
theorem test_jmpNotEq_not_taken :
    regsAfter (step (stateAt 65536 0xF [0x15, 0x00, 0x03, 0x00, 0x00] [(.acc, 3)])) [.ip] = some [0x14] := by decide

/-- V-PSL7: an odd `SP`. -/
theorem test_pshLit_odd_sp :
    regsAfter (step (stateAt 65536 0x10 [0x17, 0xAB, 0xCD] [(.sp, 0x8001)])) [.sp, .ip] = some [0x7FFF, 0x13] ∧
    bytesAfter (step (stateAt 65536 0x10 [0x17, 0xAB, 0xCD] [(.sp, 0x8001)])) [0x8001, 0x8002] =
      some [0xAB, 0xCD] := by decide

/-- V-PSL3 and V-PSL5: which fault a push reports. -/
theorem test_pshLit_faults :
    faultOf (step (stateAt 65536 0x10 [0x17, 0xAB, 0xCD] [(.sp, 1)])) = some (.stackOverflow 1) ∧
    faultOf (step (stateAt 65536 0x10 [0x17, 0xAB, 0xCD] [(.sp, 0xFFFF)])) =
      some (.memoryFault 0xFFFF .word .write) := by decide

/-- V-PSR2: `PSH_REG SP` pushes the old `SP`. -/
theorem test_pshReg_old_sp :
    bytesAfter (step (stateAt 65536 3 [0x18, 0x0A] [])) [0xFFFE, 0xFFFF] = some [0xFF, 0xFE] := by decide

/-- V-PSR3: `PSH_REG IP` pushes the next instruction's address. -/
theorem test_pshReg_ip :
    bytesAfter (step (stateAt 65536 0x30 [0x18, 0x00] [])) [0xFFFE, 0xFFFF] = some [0x00, 0x32] := by decide

/-- V-POP3: `POP SP` ends with the popped word. -/
theorem test_pop_sp :
    regsAfter (step (withWord (stateAt 65536 6 [0x1A, 0x0A] [(.sp, 0xFFFA)]) 0xFFFC 0x12 0x34)) [.sp, .ip] =
      some [0x1234, 8] := by decide

/-- V-POP2 and V-POP7: an empty stack, and the bound taken on the integer. -/
theorem test_pop_underflows :
    faultOf (step (stateAt 65536 6 [0x1A, 0x02] [])) = some (.stackUnderflow 0xFFFE) ∧
    faultOf (step (stateAt 65536 6 [0x1A, 0x02] [(.sp, 0xFFFF)])) = some (.stackUnderflow 0xFFFF) := by decide

/-- V-UNK6: an unknown opcode at 0xFFFF in `nop` mode. -/
theorem test_unknown_opcode_wraps_ip :
    regsAfter (step (inNopMode (stateAt 65536 0xFFFF [0x19] []))) [.ip] = some [0] := by decide

/-- V-FET1: an operand byte fetched at 0 after the wrap. -/
theorem test_fetch_wraps_ip :
    regsAfter (step (stateAt 65536 0xFFFF [0x1A, 0x02] [(.sp, 0xFFFA)])) [.r1, .sp, .ip] =
      some [0, 0xFFFC, 1] := by decide

/-- V-MEM1 to V-MEM3 and V-MEM8: overlapping, truncating and out-of-bounds word writes. -/
theorem test_memory_word_writes :
    memWrite16 16 [] 4 0x1234 = .ok [(4, 0x12), (5, 0x34)] ∧
    memWrite16 16 [(4, 0x12), (5, 0x34)] 5 0x5678 = .ok [(4, 0x12), (5, 0x56), (6, 0x78)] ∧
    memWrite16 16 [] 6 0x12345 = .ok [(6, 0x23), (7, 0x45)] ∧
    memWrite16 16 [] 15 1 = .error (.memoryFault 15 .word .write) := by decide

/-- S1: a register takes the value mod 65536, negative values included. -/
theorem test_register_write_truncates :
    ((small 0 [] []).assign .r1 0x12345).reg .r1 = 0x2345 ∧ ((small 0 [] []).assign .sp (-2)).reg .sp = 0xFFFE := by
  decide

/-! ### Witnesses: concrete inputs that meet the hypotheses of the statements -/

/-- DecodeEncodeRoundTrip, FormatsDecodeInFieldOrder and UnknownOpcodesNumber247: an injective `OPC`, the default one
and another. -/
theorem test_witness_injective_opc : defaultOpc.Injective ∧
    (OpcodeMap.mk 0 1 2 3 4 5 6 7 255).Injective := by decide

theorem test_witness_DecodedBytesAreTheEncoding :
    decode defaultOpc [0x10, 0x12, 0x34, 0x02, 0xFF] = .ok (.movLitReg 0x1234 0x02, [0xFF]) := by decide

/-- One clause each: no instruction, one byte too few, exactly enough. -/
theorem test_witness_OpcodeByteFixesInstructionAndLength :
    selectOpcode defaultOpc 0x16 = none ∧ selectOpcode defaultOpc 0x10 = some .movLitReg ∧
    [(0x12 : Byte), 0x34].length + 1 < instrLength .movLitReg ∧
    instrLength .movLitReg ≤ [(0x12 : Byte), 0x34, 0x02].length + 1 := by decide

theorem test_witness_NamedReadKnowsExactlyTheTwelve : ∀ r : Reg, regName r ≠ "PC" := by
  intro r
  cases r <;> decide

theorem test_witness_RegistersAndMemoryNeverAlias : ∃ t, (small 0 [] []).store16 30 0x1234 = .ok t := ⟨_, rfl⟩

/-- ReadsAreBigEndianAndBounded, WordWriteStoresHighByteFirst and LoaderByteWrite over 16 bytes: the last legal byte and
word, the first illegal of each, and a negative address. -/
theorem test_witness_memory_bounds :
    ((0 : Int) ≤ 15 ∧ (15 : Int) < (16 : Nat)) ∧ ¬ ((0 : Int) ≤ 16 ∧ (16 : Int) < (16 : Nat)) ∧
    ((0 : Int) ≤ 14 ∧ (14 : Int) + 1 < (16 : Nat)) ∧ ¬ ((0 : Int) ≤ 15 ∧ (15 : Int) + 1 < (16 : Nat)) ∧
    ¬ ((0 : Int) ≤ -1 ∧ (-1 : Int) + 1 < (16 : Nat)) := by decide

theorem test_witness_OverlappingWordsShareAByte :
    memWrite16 16 [] 4 (0x1234 : Word).toNat = .ok [(4, 0x12), (5, 0x34)] ∧
    memWrite16 16 [(4, 0x12), (5, 0x34)] (4 + 1) (0x5678 : Word).toNat =
      .ok [(4, 0x12), (5, 0x56), (6, 0x78)] := by decide

/-- In range at both ends of `N` and at the highest `STACK_LOW`; out of range in each of the four ways. -/
theorem test_witness_ConstructionSetsResetValues :
    (cfgOf 2 0).Wf ∧ (cfgOf 65536 0).Wf ∧ (cfgOf 32 30).Wf ∧
    ¬ (cfgOf 1 0).Wf ∧ ¬ (cfgOf 65537 0).Wf ∧ ¬ (cfgOf 32 31).Wf ∧
    ¬ ({ defaultConfig with opc := { defaultOpc with pop := 0x10 } } : Config).Wf := by decide

/-- ConstructionMeetsInvariant and FramePointerOnlyByOperand: a construction that answers a state. -/
theorem test_witness_construct :
    ∃ s, construct (cfgOf 4 0) (fun a => if a = 1 then 7 else 0) = .next s := ⟨_, rfl⟩

/-- The whole of Memory, the empty window at its end, and each way to be outside. -/
theorem test_witness_MemoryWindowRead :
    ((0 : Int) ≤ 0 ∧ (0 : Int) ≤ 32 ∧ (0 : Int) + 32 ≤ (small 0 [] []).cfg.memLen) ∧
    ((0 : Int) ≤ 32 ∧ (0 : Int) ≤ 0 ∧ (32 : Int) + 0 ≤ (small 0 [] []).cfg.memLen) ∧
    ¬ ((0 : Int) ≤ 1 ∧ (0 : Int) ≤ 32 ∧ (1 : Int) + 32 ≤ (small 0 [] []).cfg.memLen) ∧
    ¬ ((0 : Int) ≤ -1 ∧ (0 : Int) ≤ 0 ∧ (-1 : Int) + 0 ≤ (small 0 [] []).cfg.memLen) ∧
    ¬ ((0 : Int) ≤ 0 ∧ (0 : Int) ≤ -1 ∧ (0 : Int) + -1 ≤ (small 0 [] []).cfg.memLen) := by decide

/-- The last word of Memory, and `IP` at its last byte. -/
theorem test_witness_FetchWordReadsThenAdvances :
    ((small 30 [] []).reg .ip).toNat + 1 < (small 30 [] []).cfg.memLen ∧
    (small 31 [] []).cfg.memLen ≤ ((small 31 [] []).reg .ip).toNat + 1 := by decide

/-- The last byte of Memory, and `IP` just past it. -/
theorem test_witness_FetchByteReadsThenAdvances :
    ((small 31 [] []).reg .ip).toNat < (small 31 [] []).cfg.memLen ∧
    (small 32 [] []).cfg.memLen ≤ ((small 32 [] []).reg .ip).toNat := by decide

/-- An instruction whose last byte is the last of Memory. -/
theorem test_witness_StepRunsDecodedInstruction :
    (small 28 [0x10, 0x12, 0x34, 0x02] []).cfg.memLen ≤ 65536 ∧
    decode (small 28 [0x10, 0x12, 0x34, 0x02] []).cfg.opc ((small 28 [0x10, 0x12, 0x34, 0x02] []).codeWindow 5) =
      .ok (.movLitReg 0x1234 0x02, [0]) ∧
    ((small 28 [0x10, 0x12, 0x34, 0x02] []).reg .ip).toNat < (small 28 [0x10, 0x12, 0x34, 0x02] []).cfg.memLen ∧
    firstMisfit (small 28 [0x10, 0x12, 0x34, 0x02] []).cfg.memLen (operandFields .movLitReg)
      ((small 28 [0x10, 0x12, 0x34, 0x02] []).reg .ip + 1) = none := by decide

/-- `IP` at the end of Memory; a register field and a literal that do not fit. -/
theorem test_witness_StepFaultsAtFirstUnfetchableField :
    (small 32 [] []).cfg.memLen ≤ ((small 32 [] []).reg .ip).toNat ∧
    (((small 29 [0x10] []).reg .ip).toNat < (small 29 [0x10] []).cfg.memLen ∧
      selectOpcode (small 29 [0x10] []).cfg.opc ((small 29 [0x10] []).byteAt ((small 29 [0x10] []).reg .ip)) =
        some .movLitReg ∧
      firstMisfit (small 29 [0x10] []).cfg.memLen (operandFields .movLitReg) ((small 29 [0x10] []).reg .ip + 1) =
        some (32, .byte)) ∧
    firstMisfit (small 30 [0x10] []).cfg.memLen (operandFields .movLitReg) ((small 30 [0x10] []).reg .ip + 1) =
      some (31, .word) := by decide

/-- An unknown opcode as the last byte of Memory, in either mode. -/
theorem test_witness_UnknownOpcodeByMode :
    ((small 31 [0x16] []).reg .ip).toNat < (small 31 [0x16] []).cfg.memLen ∧
    selectOpcode (small 31 [0x16] []).cfg.opc ((small 31 [0x16] []).byteAt ((small 31 [0x16] []).reg .ip)) = none ∧
    (small 31 [0x16] []).cfg.unknownOpcodeMode = .fault ∧
    selectOpcode (inNopMode (small 31 [0x16] [])).cfg.opc
      ((inNopMode (small 31 [0x16] [])).byteAt ((inNopMode (small 31 [0x16] [])).reg .ip)) = none ∧
    (inNopMode (small 31 [0x16] [])).cfg.unknownOpcodeMode = .nop := by decide

/-- FaultingStepChangesNothing and the second case of StepFaultMatrix. -/
theorem test_witness_faulting_step : step (small 0 [0x16] []) = .fault (.invalidOpcode 0x16 0) := rfl

/-- The first case of StepFaultMatrix. -/
theorem test_witness_fetch_fault : step (small 32 [] []) = .fault (.memoryFault 32 .byte .fetch) := rfl

/-- The last case of StepFaultMatrix. -/
theorem test_witness_execute_fault :
    step (small 0 [0x14, 0x0C, 0x00] []) = .fault (.invalidRegister (.index 12)) := rfl

/-- One `Ok` step, then the fault; and a run that faults at once. -/
theorem test_witness_RunEndsAtFirstFault :
    (run 2 (small 30 [0x18, 0x00] [])).report = .fault (.memoryFault 32 .byte .fetch) ∧
    (run 2 (small 32 [] [])).report = .fault (.memoryFault 32 .byte .fetch) := by decide

/-- `IP` past Memory; each field the first that does not fit; the last place where all fit. -/
theorem test_witness_MovLitRegStep :
    (small 32 [] []).cfg.memLen ≤ (32 : Word).toNat ∧
    ((30 : Word).toNat < 32 ∧ (small 30 [0x10] []).byteAt 30 = defaultOpc.movLitReg ∧
      32 ≤ ((30 : Word) + 1).toNat + 1) ∧
    ((small 29 [0x10] []).byteAt 29 = defaultOpc.movLitReg ∧ ((29 : Word) + 1).toNat + 1 < 32 ∧
      32 ≤ ((29 : Word) + 3).toNat) ∧
    ((small 28 [0x10, 0x12, 0x34, 0xFF] []).reg .ip = 28 ∧
      (small 28 [0x10, 0x12, 0x34, 0xFF] []).byteAt 28 = (small 28 [0x10, 0x12, 0x34, 0xFF] []).cfg.opc.movLitReg ∧
      (small 28 [0x10, 0x12, 0x34, 0xFF] []).cfg.opc.Injective ∧
      (small 28 [0x10, 0x12, 0x34, 0xFF] []).cfg.memLen = 32 ∧
      ((28 : Word) + 1).toNat + 1 < 32 ∧ ((28 : Word) + 3).toNat < 32 ∧
      regIndex .r2 = ((small 28 [0x10, 0x12, 0x34, 0xFF] []).byteAt (28 + 3)).toNat % 12) := by decide

/-- Each field the first that does not fit; the last place where all fit, `IP` as the source and as the destination. -/
theorem test_witness_MovRegRegStep :
    ((small 31 [0x11] []).byteAt 31 = defaultOpc.movRegReg ∧ 32 ≤ ((31 : Word) + 1).toNat) ∧
    ((small 30 [0x11] []).byteAt 30 = defaultOpc.movRegReg ∧ ((30 : Word) + 1).toNat < 32 ∧
      32 ≤ ((30 : Word) + 2).toNat) ∧
    ((small 29 [0x11, 0x0C, 0x02] []).reg .ip = 29 ∧
      (small 29 [0x11, 0x0C, 0x02] []).byteAt 29 = (small 29 [0x11, 0x0C, 0x02] []).cfg.opc.movRegReg ∧
      (small 29 [0x11, 0x0C, 0x02] []).cfg.opc.Injective ∧ (small 29 [0x11, 0x0C, 0x02] []).cfg.memLen = 32 ∧
      ((29 : Word) + 1).toNat < 32 ∧ ((29 : Word) + 2).toNat < 32 ∧
      regIndex .ip = ((small 29 [0x11, 0x0C, 0x02] []).byteAt (29 + 1)).toNat % 12 ∧
      regIndex .r1 = ((small 29 [0x11, 0x0C, 0x02] []).byteAt (29 + 2)).toNat % 12) ∧
    regIndex .ip = ((small 29 [0x11, 0x02, 0x18] []).byteAt (29 + 2)).toNat % 12 := by decide

/-- Each field the first that does not fit; a store to the last word of Memory, and one to its last byte. -/
theorem test_witness_MovRegMemStep :
    ((small 31 [0x12] []).byteAt 31 = defaultOpc.movRegMem ∧ 32 ≤ ((31 : Word) + 1).toNat) ∧
    ((small 29 [0x12] []).byteAt 29 = defaultOpc.movRegMem ∧ ((29 : Word) + 1).toNat < 32 ∧
      32 ≤ ((29 : Word) + 2).toNat + 1) ∧
    ((small 28 [0x12, 0x02, 0x00, 0x1E] []).reg .ip = 28 ∧
      (small 28 [0x12, 0x02, 0x00, 0x1E] []).byteAt 28 = (small 28 [0x12, 0x02, 0x00, 0x1E] []).cfg.opc.movRegMem ∧
      (small 28 [0x12, 0x02, 0x00, 0x1E] []).cfg.opc.Injective ∧
      (small 28 [0x12, 0x02, 0x00, 0x1E] []).cfg.memLen = 32 ∧
      ((28 : Word) + 1).toNat < 32 ∧ ((28 : Word) + 2).toNat + 1 < 32 ∧
      regIndex .r1 = ((small 28 [0x12, 0x02, 0x00, 0x1E] []).byteAt (28 + 1)).toNat % 12 ∧
      30 = (small 28 [0x12, 0x02, 0x00, 0x1E] []).wordAt ((28 : Word) + 2).toNat ∧ 30 + 1 < 32) ∧
    (31 = (small 28 [0x12, 0x02, 0x00, 0x1F] []).wordAt ((28 : Word) + 2).toNat ∧ 32 ≤ 31 + 1) := by decide

/-- `IP` past Memory; each field the first that does not fit; a load of the last word, and one at the last byte. -/
theorem test_witness_MovMemRegStep :
    (small 32 [] []).cfg.memLen ≤ (32 : Word).toNat ∧
    ((small 30 [0x13] []).byteAt 30 = defaultOpc.movMemReg ∧ 32 ≤ ((30 : Word) + 1).toNat + 1) ∧
    ((small 29 [0x13] []).byteAt 29 = defaultOpc.movMemReg ∧ ((29 : Word) + 1).toNat + 1 < 32 ∧
      32 ≤ ((29 : Word) + 3).toNat) ∧
    ((small 28 [0x13, 0x00, 0x1E, 0x00] []).reg .ip = 28 ∧
      (small 28 [0x13, 0x00, 0x1E, 0x00] []).byteAt 28 = (small 28 [0x13, 0x00, 0x1E, 0x00] []).cfg.opc.movMemReg ∧
      (small 28 [0x13, 0x00, 0x1E, 0x00] []).cfg.opc.Injective ∧
      (small 28 [0x13, 0x00, 0x1E, 0x00] []).cfg.memLen = 32 ∧
      ((28 : Word) + 1).toNat + 1 < 32 ∧ ((28 : Word) + 3).toNat < 32 ∧
      regIndex .ip = ((small 28 [0x13, 0x00, 0x1E, 0x00] []).byteAt (28 + 3)).toNat % 12 ∧
      30 = (small 28 [0x13, 0x00, 0x1E, 0x00] []).wordAt ((28 : Word) + 1).toNat ∧ 30 + 1 < 32) ∧
    (31 = (small 28 [0x13, 0x00, 0x1F, 0x00] []).wordAt ((28 : Word) + 1).toNat ∧ 32 ≤ 31 + 1) := by decide

/-- LoadAndStoreComplete and LoadAndStoreFaultOutOfBounds: the last word of Memory, and its last byte. -/
theorem test_witness_load_and_store :
    (30 : Word).toNat + 1 < (small 0 [] []).cfg.memLen ∧ (small 0 [] []).cfg.memLen ≤ (31 : Word).toNat + 1 := by
  decide

/-- The three stores, each to the last word of Memory, whose length is in range. -/
theorem test_witness_StoreIsSeenByNextFetch :
    (∃ t, exec (.movRegMem 0x02 30) (small 0 [] []) = .next t ∧ t.cfg.memLen ≤ 65536) ∧
    (∃ t, exec (.pshLit 0x1234) (small 0 [] []) = .next t ∧ t.cfg.memLen ≤ 65536) ∧
    ∃ t, exec (.pshReg 0x0A) (small 0 [] []) = .next t ∧ t.cfg.memLen ≤ 65536 :=
  ⟨⟨_, rfl, by decide⟩, ⟨_, rfl, by decide⟩, ⟨_, rfl, by decide⟩⟩

/-- The lowest and the highest raw index. -/
theorem test_witness_AddWrapsIntoAcc : regIndex .ip = (0 : Byte).toNat ∧ regIndex .fp = (11 : Byte).toNat := by decide

theorem test_witness_AddRejectsRawIndexFromTwelve :
    12 ≤ (12 : Byte).toNat ∧ (11 : Byte).toNat < 12 ∧ 12 ≤ (255 : Byte).toNat := by decide

/-- Both indices legal (`IP` a source), the first illegal, only the second illegal. -/
theorem test_witness_AddRegRegStep :
    ((small 29 [0x14, 0x00, 0x0B] []).reg .ip = 29 ∧ (small 29 [0x14, 0x00, 0x0B] []).cfg.opc.Injective ∧
      (29 : Word).toNat < (small 29 [0x14, 0x00, 0x0B] []).cfg.memLen ∧
      ((29 : Word) + 1).toNat < (small 29 [0x14, 0x00, 0x0B] []).cfg.memLen ∧
      ((29 : Word) + 2).toNat < (small 29 [0x14, 0x00, 0x0B] []).cfg.memLen ∧
      (small 29 [0x14, 0x00, 0x0B] []).byteAt 29 = (small 29 [0x14, 0x00, 0x0B] []).cfg.opc.addRegReg ∧
      (small 29 [0x14, 0x00, 0x0B] []).byteAt (29 + 1) = 0 ∧ (small 29 [0x14, 0x00, 0x0B] []).byteAt (29 + 2) = 11 ∧
      regIndex .ip = (0 : Byte).toNat ∧ regIndex .fp = (11 : Byte).toNat) ∧
    ((small 29 [0x14, 0x0C, 0x0C] []).byteAt (29 + 1) = 12 ∧ 12 ≤ (12 : Byte).toNat) ∧
    ((small 29 [0x14, 0x0B, 0x0C] []).byteAt (29 + 1) = 11 ∧ (11 : Byte).toNat < 12 ∧
      (small 29 [0x14, 0x0B, 0x0C] []).byteAt (29 + 2) = 12 ∧ 12 ≤ (12 : Byte).toNat) := by decide

/-- `IP` past Memory; each operand the first that does not fit; the last place, taken and not taken. -/
theorem test_witness_JmpNotEqStep :
    (small 32 [] []).cfg.memLen ≤ (32 : Word).toNat ∧
    ((small 30 [0x15] []).byteAt 30 = defaultOpc.jmpNotEq ∧ 32 ≤ ((30 : Word) + 1).toNat + 1) ∧
    ((small 28 [0x15] []).byteAt 28 = defaultOpc.jmpNotEq ∧ ((28 : Word) + 1).toNat + 1 < 32 ∧
      32 ≤ ((28 : Word) + 3).toNat + 1) ∧
    ((small 27 [0x15, 0x00, 0x03, 0x00, 0x00] []).reg .ip = 27 ∧
      (small 27 [0x15, 0x00, 0x03, 0x00, 0x00] []).cfg.memLen = 32 ∧
      (small 27 [0x15, 0x00, 0x03, 0x00, 0x00] []).cfg.opc.Injective ∧
      (small 27 [0x15, 0x00, 0x03, 0x00, 0x00] []).byteAt 27 =
        (small 27 [0x15, 0x00, 0x03, 0x00, 0x00] []).cfg.opc.jmpNotEq ∧
      ((27 : Word) + 1).toNat + 1 < 32 ∧ ((27 : Word) + 3).toNat + 1 < 32 ∧
      (small 27 [0x15, 0x00, 0x03, 0x00, 0x00] []).wordAt ((27 : Word) + 1).toNat ≠
        ((small 27 [0x15, 0x00, 0x03, 0x00, 0x00] []).reg .acc).toNat) ∧
    (small 27 [0x15, 0x00, 0x03, 0x00, 0x00] [(.acc, 3)]).wordAt ((27 : Word) + 1).toNat =
      ((small 27 [0x15, 0x00, 0x03, 0x00, 0x00] [(.acc, 3)]).reg .acc).toNat := by decide

/-- PushesComplete: the highest slot, and the lowest one above the low-water mark. -/
theorem test_witness_PushesComplete :
    (((small 0 [] []).reg .sp).toNat = 30 ∧ 30 + 1 < (small 0 [] []).cfg.memLen ∧
      (small 0 [] []).cfg.stackLow + 2 ≤ 30) ∧
    (((withLow (small 0 [] [(.sp, 10)]) 8).reg .sp).toNat = 10 ∧
      10 + 1 < (withLow (small 0 [] [(.sp, 10)]) 8).cfg.memLen ∧
      (withLow (small 0 [] [(.sp, 10)]) 8).cfg.stackLow + 2 ≤ 10) := by decide

/-- PushFaults: the slot at the last byte; just below the low-water mark. -/
theorem test_witness_PushFaults :
    (small 0 [] [(.sp, 31)]).cfg.memLen ≤ ((small 0 [] [(.sp, 31)]).reg .sp).toNat + 1 ∧
    (((withLow (small 0 [] [(.sp, 9)]) 8).reg .sp).toNat + 1 < (withLow (small 0 [] [(.sp, 9)]) 8).cfg.memLen ∧
      ((withLow (small 0 [] [(.sp, 9)]) 8).reg .sp).toNat <
        (withLow (small 0 [] [(.sp, 9)]) 8).cfg.stackLow + 2) := by decide

/-- PopCompletes and PopUnderflows: the highest `SP` that may pop, and the next. -/
theorem test_witness_pop :
    ((small 0 [] [(.sp, 28)]).cfg.memLen ≤ 65536 ∧ ((small 0 [] [(.sp, 28)]).reg .sp).toNat = 28 ∧
      28 + 2 + 2 ≤ (small 0 [] [(.sp, 28)]).cfg.memLen) ∧
    wrapReg 0x02 ≠ .sp ∧
    (small 0 [] [(.sp, 29)]).cfg.memLen < ((small 0 [] [(.sp, 29)]).reg .sp).toNat + 4 := by decide

/-- The three instructions, each at the edge of the stack. -/
theorem test_witness_StackInstructionSteps :
    ((small 0 [0x17, 0xAB, 0xCD] []).reg .ip = 0 ∧ (small 0 [0x17, 0xAB, 0xCD] []).cfg.Wf ∧
      (0 : Word).toNat < (small 0 [0x17, 0xAB, 0xCD] []).cfg.memLen ∧
      ((small 0 [0x17, 0xAB, 0xCD] []).reg .sp).toNat = 30 ∧
      (small 0 [0x17, 0xAB, 0xCD] []).byteAt 0 = (small 0 [0x17, 0xAB, 0xCD] []).cfg.opc.pshLit ∧
      ((0 : Word) + 1).toNat + 1 < 32 ∧ 30 + 1 < (small 0 [0x17, 0xAB, 0xCD] []).cfg.memLen ∧
      (small 0 [0x17, 0xAB, 0xCD] []).cfg.stackLow + 2 ≤ 30) ∧
    ((small 30 [0x18, 0x0C] [(.sp, 2)]).reg .ip = 30 ∧ (small 30 [0x18, 0x0C] [(.sp, 2)]).cfg.Wf ∧
      ((small 30 [0x18, 0x0C] [(.sp, 2)]).reg .sp).toNat = 2 ∧
      (small 30 [0x18, 0x0C] [(.sp, 2)]).byteAt 30 = (small 30 [0x18, 0x0C] [(.sp, 2)]).cfg.opc.pshReg ∧
      ((30 : Word) + 1).toNat < (small 30 [0x18, 0x0C] [(.sp, 2)]).cfg.memLen ∧
      (small 30 [0x18, 0x0C] [(.sp, 2)]).cfg.stackLow + 2 ≤ 2 ∧
      regIndex .ip = ((small 30 [0x18, 0x0C] [(.sp, 2)]).byteAt (30 + 1)).toNat % 12) ∧
    ((small 4 [0x1A, 0x0A] [(.sp, 28)]).reg .ip = 4 ∧ (small 4 [0x1A, 0x0A] [(.sp, 28)]).cfg.Wf ∧
      ((small 4 [0x1A, 0x0A] [(.sp, 28)]).reg .sp).toNat = 28 ∧
      (small 4 [0x1A, 0x0A] [(.sp, 28)]).byteAt 4 = (small 4 [0x1A, 0x0A] [(.sp, 28)]).cfg.opc.pop ∧
      ((4 : Word) + 1).toNat < (small 4 [0x1A, 0x0A] [(.sp, 28)]).cfg.memLen ∧
      28 + 2 + 2 ≤ (small 4 [0x1A, 0x0A] [(.sp, 28)]).cfg.memLen ∧
      regIndex .sp = ((small 4 [0x1A, 0x0A] [(.sp, 28)]).byteAt (4 + 1)).toNat % 12) := by decide

/-- PushThenPopIsLifo: two pushes in a row; the state after the first, unchanged, meets the first part's premises. -/
theorem test_witness_PushThenPopIsLifo : ∃ s1 s2,
    push 0x5151 (small 0 [] []) = .ok s1 ∧ push 0x4242 s1 = .ok s2 ∧ s1.cfg = s1.cfg ∧
      s1.reg .sp = s1.reg .sp ∧
      s1.wordAt ((small 0 [] []).reg .sp).toNat = s1.wordAt ((small 0 [] []).reg .sp).toNat :=
  ⟨_, _, rfl, rfl, rfl, rfl, rfl⟩

/-- P6 of 95_test_vectors.md: with `N = 32` and `STACK_LOW = 26` two pushes fit and a third does not. -/
theorem test_witness_StackLayoutAfterPushes :
    ((withLow (small 0 [] []) 26).cfg.Wf ∧
      ((withLow (small 0 [] []) 26).reg .sp).toNat + 2 = (withLow (small 0 [] []) 26).cfg.memLen) ∧
    (∃ t, pushAll [1, 2] (withLow (small 0 [] []) 26) = .ok t) ∧
    pushAll [1, 2, 3] (withLow (small 0 [] []) 26) = .error (.stackOverflow 26) :=
  ⟨by decide, ⟨_, rfl⟩, rfl⟩

/-- `SP` at its upper and at its lower bound, with an instruction that moves it. -/
theorem test_witness_StackPointerStaysInBounds :
    ((small 0 [] []).cfg.Wf ∧ (small 0 [] []).StackInBounds ∧ (Instr.pshLit 5).destOperand ≠ some .sp ∧
      ∃ t, exec (.pshLit 5) (small 0 [] []) = .next t) ∧
    ((small 0 [] [(.sp, 0)]).StackInBounds ∧ (Instr.pop 0x02).destOperand ≠ some .sp ∧
      ∃ t, exec (.pop 0x02) (small 0 [] [(.sp, 0)]) = .next t) := by
  refine ⟨⟨by decide, ?_, by decide, ⟨_, rfl⟩⟩, ?_, by decide, ⟨_, rfl⟩⟩ <;>
    unfold State.StackInBounds <;> decide

/-- ExecFrame: a form that stores and a form that stores nothing. -/
theorem test_witness_ExecFrame :
    (∃ t, exec (.pshReg 0x0A) (small 0 [] []) = .next t) ∧ ∃ t, exec (.movMemReg 30 0x00) (small 0 [] []) = .next t :=
  ⟨⟨_, rfl⟩, ⟨_, rfl⟩⟩

/-- StepFrame: an instruction, and an unknown opcode in `nop` mode. -/
theorem test_witness_StepFrame :
    (∃ t, step (small 0 [0x17, 0x12, 0x34] []) = .next t) ∧ ∃ t, step (inNopMode (small 0 [0x16] [])) = .next t :=
  ⟨⟨_, rfl⟩, ⟨_, rfl⟩⟩

/-- IpAfterStep: the values of `IP` after a skip, in sequence, a taken jump, and a pop into `IP`. -/
theorem test_witness_IpAfterStep :
    regsAfter (step (inNopMode (small 0 [0x16] []))) [.ip] = some [1] ∧
    regsAfter (step (small 0 [0x11, 0x02, 0x03] [])) [.ip] = some [3] ∧
    regsAfter (step (small 0 [0x15, 0x00, 0x01, 0x00, 0x09] [])) [.ip] = some [9] ∧
    regsAfter (step (withWord (small 0 [0x1A, 0x00] [(.sp, 28)]) 30 0x02 0x00)) [.ip] = some [0x200] := by decide

/-- GeneralRegistersOnlyByOperand: `R1` and `R8`, the ends of the range, under an instruction naming neither. -/
theorem test_witness_GeneralRegistersOnlyByOperand :
    (2 ≤ regIndex .r1 ∧ regIndex .r1 ≤ 9) ∧ (2 ≤ regIndex .r8 ∧ regIndex .r8 ≤ 9) ∧
    .r1 ∉ (Instr.addRegReg 0x03 0x04).operandRegs ∧ .r8 ∉ (Instr.addRegReg 0x03 0x04).operandRegs ∧
    ∃ s', fetchInstr (small 0 [0x14, 0x03, 0x04] []) = .ok (.instruction (.addRegReg 0x03 0x04) s') :=
  ⟨by decide, by decide, by decide, by decide, ⟨_, rfl⟩⟩

/-- FramePointerOnlyByOperand: a push, a pop, an instruction that does not name `FP`, a step that changes it, and a step
of an instruction that does not name it. -/
theorem test_witness_FramePointerOnlyByOperand :
    (∃ t, push 1 (small 0 [] []) = .ok t) ∧ (∃ t, pop (small 0 [] [(.sp, 28)]) = .ok (0, t)) ∧
    ((Instr.pop 0x0A).destOperand ≠ some .fp ∧ ∃ t, exec (.pop 0x0A) (small 0 [] [(.sp, 28)]) = .next t) ∧
    (∃ t, step (small 0 [0x10, 0x12, 0x34, 0x0B] []) = .next t ∧
      t.reg .fp ≠ (small 0 [0x10, 0x12, 0x34, 0x0B] []).reg .fp) ∧
    regIndex .fp = 11 ∧ .fp ∉ (Instr.pop 0x0A).operandRegs ∧
    ∃ s', fetchInstr (small 0 [0x1A, 0x0A] []) = .ok (.instruction (.pop 0x0A) s') :=
  ⟨⟨_, rfl⟩, ⟨_, rfl⟩, ⟨by decide, ⟨_, rfl⟩⟩, ⟨_, rfl, by decide⟩, rfl, by decide, ⟨_, rfl⟩⟩

/-- StepKeepsInvariant and RunKeepsInvariant: a state that meets the invariant and steps. -/
theorem test_witness_StepKeepsInvariant :
    (small 0 [0x17, 0x12, 0x34] []).Inv ∧ ∃ t, step (small 0 [0x17, 0x12, 0x34] []) = .next t :=
  ⟨by decide, ⟨_, rfl⟩⟩

end Sys2Proof.Machine.Slice0
end

section
/-! PROOFS. A register that an instruction neither names nor uses implicitly (`IP`, `ACC` and `SP` are the three that
instructions use so) takes no part in it: every operation commutes with a change of that register
(10_state.md R29, R38). -/

namespace Sys2Proof.Machine

/-! ### The shared operations -/

/-- A change that commutes with what an operation yields commutes with how the step ends. -/
theorem commit_map (f : State → State) (e : Except Fault State) : commit (e.map f) = mapNext f (commit e) := by
  cases e <;> rfl

/-- A data write takes no register into account. -/
theorem store16_setReg (s : State) (r : Reg) (v addr w : Word) :
    (s.setReg r v).store16 addr w = (s.store16 addr w).map (·.setReg r v) := by
  rw [State.store16, State.store16, setReg_cfg, setReg_mem]
  cases memWrite16 s.cfg.memLen s.mem addr.toNat w.toNat <;> rfl

/-- A data read takes no register into account. -/
theorem load16_setReg (s : State) (r : Reg) (v addr : Word) : (s.setReg r v).load16 addr = s.load16 addr := rfl

/-- A push reads and writes no register but `SP` (44_stack.md R130). -/
theorem push_setReg {r : Reg} (h : r ≠ .sp) (s : State) (v w : Word) :
    push w (s.setReg r v) = (push w s).map (·.setReg r v) := by
  simp only [push, setReg_reg, if_neg h.symm, setReg_cfg, store16_setReg]
  split_ifs
  · rfl
  · rfl
  · cases s.store16 (s.reg .sp) w with
    | error f => rfl
    | ok t => exact congrArg Except.ok (setReg_comm t _ _ h)

/-- A pop reads and writes no register but `SP` (44_stack.md R131). -/
theorem pop_setReg {r : Reg} (h : r ≠ .sp) (s : State) (v : Word) :
    pop (s.setReg r v) = (pop s).map fun (w, t) => (w, t.setReg r v) := by
  simp only [pop, setReg_reg, if_neg h.symm, setReg_cfg, setReg_mem, State.assign, setReg_comm s _ _ h]
  split_ifs
  · rfl
  · cases memRead16 s.cfg.memLen s.mem ((s.reg .sp).toNat + 2) .read <;> rfl

/-! ### Operands -/

theorem operand_setReg {r : Reg} {b : Byte} (h : r ≠ wrapReg b) (s : State) (v : Word) :
    (s.setReg r v).operand b = s.operand b := by
  simp [State.operand, h.symm]

theorem setOperand_setReg {r : Reg} {b : Byte} (h : r ≠ wrapReg b) (s : State) (v w : Word) :
    (s.setReg r v).setOperand b w = (s.setOperand b w).setReg r v :=
  setReg_comm s v w h

/-- The raw path selects the register the wrapped path selects, or none. -/
theorem rawReg_cases (b : Byte) : rawReg b = .ok (wrapReg b) ∨ ∃ f, rawReg b = .error f := by
  by_cases h : b.toNat < 12
  · exact .inl (rawReg_ok h)
  · exact .inr ⟨_, rawReg_error (not_lt.mp h)⟩

/-! ### The execute phase -/

/-- `ADD_REG_REG` reads its operands and writes `ACC`, and no other register. -/
theorem execAddRegReg_setReg {r : Reg} {regA regB : Byte} (hacc : r ≠ .acc) (hA : r ≠ wrapReg regA)
    (hB : r ≠ wrapReg regB) (s : State) (v : Word) :
    execAddRegReg regA regB (s.setReg r v) = mapNext (·.setReg r v) (execAddRegReg regA regB s) := by
  rw [execAddRegReg, execAddRegReg]
  rcases rawReg_cases regA with ha | ⟨f, ha⟩
  · rcases rawReg_cases regB with hb | ⟨f, hb⟩
    · simp only [ha, hb, except_bind_ok, setReg_reg, if_neg hA.symm, if_neg hB.symm]
      exact congrArg Host.Outcome.next (setReg_comm s _ _ hacc)
    · simp only [ha, hb, except_bind_ok]
      rfl
  · simp only [ha]
    rfl

/-- `JMP_NOT_EQ` reads `ACC` and writes `IP`, and no other register. -/
theorem execJmpNotEq_setReg {r : Reg} (hip : r ≠ .ip) (hacc : r ≠ .acc) (s : State) (v imm addr : Word) :
    execJmpNotEq imm addr (s.setReg r v) = mapNext (·.setReg r v) (execJmpNotEq imm addr s) := by
  simp only [execJmpNotEq, setReg_reg, if_neg hacc.symm]
  split_ifs
  · exact congrArg Host.Outcome.next (setReg_comm s _ _ hip)
  · rfl

/-- The execute phase of an instruction commutes with a change of a register it neither names nor uses implicitly. -/
theorem exec_setReg {r : Reg} (hip : r ≠ .ip) (hacc : r ≠ .acc) (hsp : r ≠ .sp) (s : State) (v : Word) {i : Instr}
    (h : r ∉ i.operandRegs) : exec i (s.setReg r v) = mapNext (·.setReg r v) (exec i s) := by
  cases i <;> simp only [Instr.operandRegs, List.mem_cons, List.not_mem_nil, or_false, not_or] at h <;>
    simp only [exec]
  case movLitReg imm reg => simp only [execMovLitReg, setOperand_setReg h, commit_ok, mapNext]
  case movRegReg regFrom regTo =>
    simp only [execMovRegReg, operand_setReg h.1, setOperand_setReg h.2, commit_ok, mapNext]
  case movRegMem reg addr => rw [execMovRegMem, operand_setReg h, store16_setReg, commit_map, execMovRegMem]
  case movMemReg addr reg =>
    rw [execMovMemReg, execMovMemReg, load16_setReg, ← commit_map]
    cases s.load16 addr with
    | error f => rfl
    | ok w => exact congrArg Host.Outcome.next (setOperand_setReg h s v w)
  case addRegReg regA regB => exact execAddRegReg_setReg hacc h.1 h.2 s v
  case jmpNotEq imm addr => exact execJmpNotEq_setReg hip hacc s v imm addr
  case pshLit imm => rw [execPshLit, push_setReg hsp, commit_map, execPshLit]
  case pshReg reg => rw [execPshReg, operand_setReg h, push_setReg hsp, commit_map, execPshReg]
  case pop reg =>
    rw [execPop, execPop, pop_setReg hsp, ← commit_map]
    cases pop s with
    | error f => rfl
    | ok p => exact congrArg Host.Outcome.next (setOperand_setReg h p.2 v p.1)

/-! ### The fetch and the step -/

theorem fetch8_setReg {r : Reg} (h : r ≠ .ip) (s : State) (v : Word) :
    fetch8 (s.setReg r v) = (fetch8 s).map fun (b, t) => (b, t.setReg r v) := by
  simp only [fetch8_eq, setReg_reg, if_neg h.symm, setReg_cfg, setReg_mem, setReg_comm s _ _ h]
  split_ifs <;> rfl

theorem fetch16_setReg {r : Reg} (h : r ≠ .ip) (s : State) (v : Word) :
    fetch16 (s.setReg r v) = (fetch16 s).map fun (w, t) => (w, t.setReg r v) := by
  simp only [fetch16_eq, setReg_reg, if_neg h.symm, setReg_cfg, setReg_mem, setReg_comm s _ _ h]
  split_ifs <;> rfl

/-- A decode phase that succeeds commutes with a change of a register other than `IP`. -/
theorem decodeOperands_setReg {r : Reg} (hr : r ≠ .ip) (v : Word) {m : Mnemonic} {s s' : State} {i : Instr}
    (h : decodeOperands fetch8 fetch16 m s = .ok (i, s')) :
    decodeOperands fetch8 fetch16 m (s.setReg r v) = .ok (i, s'.setReg r v) := by
  cases m <;> simp only [decodeOperands, except_bind_eq_ok, Prod.exists, pure, Except.pure, Except.ok.injEq,
    Prod.mk.injEq] at h
  case pshLit | pshReg | pop =>
    obtain ⟨x, a, hx, rfl, rfl⟩ := h
    simp [decodeOperands, fetch8_setReg hr, fetch16_setReg hr, hx, Except.map, pure, Except.pure]
  all_goals
    obtain ⟨x, a, hx, y, b, hy, rfl, rfl⟩ := h
    simp [decodeOperands, fetch8_setReg hr, fetch16_setReg hr, hx, hy, Except.map, pure, Except.pure]

/-- The fetch of an instruction commutes with a change of a register other than `IP`. -/
theorem fetchInstr_setReg {r : Reg} (hr : r ≠ .ip) (v : Word) {s s' : State} {i : Instr}
    (h : fetchInstr s = .ok (.instruction i s')) :
    fetchInstr (s.setReg r v) = .ok (.instruction i (s'.setReg r v)) := by
  obtain ⟨hN, ⟨_, hskip, -⟩ | ⟨j, t, hj, -, hsel, hdec⟩⟩ := fetchInstr_cases h
  · cases hskip
  · cases hj
    have hip : (s.setReg r v).reg .ip = s.reg .ip := by simp [hr.symm]
    rw [fetchInstr_known (m := i.mnemonic) (by rwa [hip]) (by rwa [hip]), hip, setReg_comm s _ _ hr,
      decodeOperands_setReg hr v hdec]
    rfl

/-- A step commutes with a change of a register that its instruction neither names nor uses implicitly. -/
theorem step_setReg {r : Reg} (hip : r ≠ .ip) (hacc : r ≠ .acc) (hsp : r ≠ .sp) (v : Word) {s s' : State} {i : Instr}
    (hf : fetchInstr s = .ok (.instruction i s')) (h : r ∉ i.operandRegs) :
    step (s.setReg r v) = mapNext (·.setReg r v) (step s) := by
  rw [step_of_fetch (fetchInstr_setReg hip v hf), step_of_fetch hf, exec_setReg hip hacc hsp s' v h]

/-- Settles O52: `R1` to `R8` are none of the three registers instructions use implicitly. -/
theorem generalRegistersOnlyByOperand : Obligations.GeneralRegistersOnlyByOperand := by
  intro s r v hlo hhi
  have hip : r ≠ .ip := by rintro rfl; simp [regIndex] at hlo
  have hacc : r ≠ .acc := by rintro rfl; simp [regIndex] at hlo
  have hsp : r ≠ .sp := by rintro rfl; simp [regIndex] at hhi
  exact ⟨fun _ h => exec_setReg hip hacc hsp s v h, fun _ _ hf h => step_setReg hip hacc hsp v hf h⟩

end Sys2Proof.Machine
end

section
/-! PROOFS. The bounds of Memory, the byte order of its words, and its separation from the registers
(20_memory.md R41, R43 to R45, R58). -/

namespace Sys2Proof.Machine

/-! ### Reads -/

/-- Inside Memory a byte read yields the byte at its address. -/
theorem memRead8_ok {n : Nat} {a : Int} (h0 : 0 ≤ a) (hN : a < n) (m : Memory) (k : AccessKind) :
    memRead8 n m a k = .ok (memByte m a.toNat) :=
  if_neg (by omega)

/-- Outside Memory a byte read faults. -/
theorem memRead8_error {n : Nat} {a : Int} (h : ¬ (0 ≤ a ∧ a < n)) (m : Memory) (k : AccessKind) :
    memRead8 n m a k = .error (.memoryFault a .byte k) :=
  if_pos (by omega)

/-- With both bytes inside Memory a word read joins them, the first one high. -/
theorem memRead16_ok {n : Nat} {a : Int} (h0 : 0 ≤ a) (hN : a + 1 < n) (m : Memory) (k : AccessKind) :
    memRead16 n m a k = .ok (joinBytes (memByte m a.toNat) (memByte m (a.toNat + 1))) :=
  if_neg (by omega)

/-- With a byte outside Memory a word read faults. -/
theorem memRead16_error {n : Nat} {a : Int} (h : ¬ (0 ≤ a ∧ a + 1 < n)) (m : Memory) (k : AccessKind) :
    memRead16 n m a k = .error (.memoryFault a .word k) :=
  if_pos (by omega)

/-- Settles O11: the two bounds checks, and the joined word as a number. -/
theorem readsAreBigEndianAndBounded : Obligations.ReadsAreBigEndianAndBounded := fun _ m _ k =>
  ⟨fun h0 hN => memRead8_ok h0 hN m k, fun h => memRead8_error h m k,
    fun h0 hN => ⟨_, memRead16_ok h0 hN m k, joinBytes_toNat _ _⟩, fun h => memRead16_error h m k⟩

/-! ### Word writes -/

/-- With both bytes inside Memory a word write sets them, the high byte first. -/
theorem memWrite16_ok {n : Nat} {a : Int} (h0 : 0 ≤ a) (hN : a + 1 < n) (m : Memory) (v : Int) :
    memWrite16 n m a v =
      .ok (memSet (memSet m a.toNat (hiByte (truncWord v))) (a.toNat + 1) (loByte (truncWord v))) :=
  if_neg (by omega)

/-- With a byte outside Memory a word write faults. -/
theorem memWrite16_error {n : Nat} {a : Int} (h : ¬ (0 ≤ a ∧ a + 1 < n)) (m : Memory) (v : Int) :
    memWrite16 n m a v = .error (.memoryFault a .word .write) :=
  if_pos (by omega)

/-- The high byte of a narrowed integer. -/
theorem hiByte_truncWord_toNat (v : Int) : ((hiByte (truncWord v)).toNat : Int) = v % 65536 / 256 := by
  rw [hiByte_toNat, Int.natCast_ediv, truncWord_toNat]
  rfl

/-- The low byte of a narrowed integer: the narrowing to a word does not show in it. -/
theorem loByte_truncWord_toNat (v : Int) : ((loByte (truncWord v)).toNat : Int) = v % 256 := by
  rw [loByte_toNat, Int.natCast_emod, truncWord_toNat]
  exact Int.emod_emod_of_dvd v (by decide)

/-- Settles O12: the two byte writes of a word write fall on different addresses. -/
theorem wordWriteStoresHighByteFirst : Obligations.WordWriteStoresHighByteFirst := by
  refine fun n m a v => ⟨fun h0 hN => ⟨_, memWrite16_ok h0 hN m v, ?high, ?low, ?frame⟩,
    fun h => memWrite16_error h m v⟩
  case high => simpa using hiByte_truncWord_toNat v
  case low => simpa using loByte_truncWord_toNat v
  case frame =>
    intro c hhi hlo
    simp [hhi, hlo]

/-! ### Registers and Memory -/

/-- A word store leaves every register as it was: all it replaces is Memory. -/
theorem store16_reg {s t : State} {addr w : Word} (h : s.store16 addr w = .ok t) (r : Reg) : t.reg r = s.reg r := by
  obtain ⟨m, -, rfl⟩ := except_map_eq_ok.mp h
  exact setMem_reg s m r

/-- Settles O10: a register write leaves Memory as it was, and a word store the registers. -/
theorem registersAndMemoryNeverAlias : Obligations.RegistersAndMemoryNeverAlias := fun s r v addr _ =>
  ⟨fun a => congrArg (memByte · a) (setReg_mem s r v), load16_setReg s r v addr, fun _ h => store16_reg h⟩

end Sys2Proof.Machine
end

section
/-! PROOFS. The word fetch whole: what it yields, how far `IP` moves, and where it faults (40_fetch_step.md R86). -/

namespace Sys2Proof.Machine

/-- With both bytes inside Memory a word fetch yields the word at `IP` and moves `IP` by two. -/
theorem fetch16_ok {s : State} (h : (s.reg .ip).toNat + 1 < s.cfg.memLen) :
    fetch16 s = .ok (joinBytes (memByte s.mem (s.reg .ip).toNat) (memByte s.mem ((s.reg .ip).toNat + 1)),
      s.setReg .ip (s.reg .ip + 2)) :=
  (fetch16_eq s).trans (if_pos h)

/-- With a byte at or past the end of Memory a word fetch faults at `IP`. -/
theorem fetch16_error {s : State} (h : s.cfg.memLen ≤ (s.reg .ip).toNat + 1) :
    fetch16 s = .error (.memoryFault (s.reg .ip).toNat .word .fetch) :=
  (fetch16_eq s).trans (if_neg (not_lt.mpr h))

/-- Settles O19: all a word fetch changes is `IP`, by an addition of words, which wraps at 65536. -/
theorem fetchWordReadsThenAdvances : Obligations.FetchWordReadsThenAdvances := by
  refine fun s => ⟨fun h => ⟨_, _, fetch16_ok h, joinBytes_wordAt s _, ?advance, setReg_changesOnly s _ _⟩,
    fetch16_error⟩
  case advance =>
    rw [setReg_reg, if_pos rfl]
    exact BitVec.toNat_add (s.reg .ip) 2

end Sys2Proof.Machine
end

section
/-! PROOFS. The two moves whose fields are a word and a register byte: their fetch faults, the literal and the load
(41_mov.md R100, R103). -/

namespace Sys2Proof.Machine

/-! ### A step over a known opcode -/

/-- `IP` is `a`, inside Memory, and the byte there is the opcode of `m` in an opcode map without a byte shared. -/
structure OpcodeAt (s : State) (a : Word) (m : Mnemonic) : Prop where
  ip : s.reg .ip = a
  inside : a.toNat < s.cfg.memLen
  injective : s.cfg.opc.Injective
  byte : s.byteAt a = opcodeByte s.cfg.opc m

/-- A step whose fetch faults ends in that fault. -/
theorem step_of_fetch_error {s : State} {f : Fault} (h : fetchInstr s = .error f) : step s = .fault f := by
  simp [step, h, raise]

/-- A step with `IP` outside Memory ends in the fault of the opcode fetch. -/
theorem step_ip_beyond {s : State} {a : Word} (hip : s.reg .ip = a) (h : s.cfg.memLen ≤ a.toNat) :
    step s = .fault (.memoryFault a.toNat .byte .fetch) := by
  subst hip
  refine step_of_fetch_error ?_
  rw [fetchInstr, fetch8_eq, if_neg (not_lt.mpr h), except_bind_error]

/-- At a known opcode the fetch is the decode phase of its operand fields, from the next address on. -/
theorem fetchInstr_opcodeAt {s : State} {a : Word} {m : Mnemonic} (h : OpcodeAt s a m) :
    fetchInstr s = (decodeOperands fetch8 fetch16 m (s.setReg .ip (a + 1))).map
      fun (i, s2) => .instruction i s2 := by
  obtain ⟨rfl, hin, hinj, hbyte⟩ := h
  exact fetchInstr_known hin (hbyte ▸ selectOpcode_opcodeByte hinj m)

/-- At a known opcode whose operand fields decode, the step executes what they decode to. -/
theorem step_opcodeAt_ok {s t : State} {a : Word} {m : Mnemonic} {i : Instr} (h : OpcodeAt s a m)
    (hd : decodeOperands fetch8 fetch16 m (s.setReg .ip (a + 1)) = .ok (i, t)) : step s = exec i t :=
  step_of_fetch (by rw [fetchInstr_opcodeAt h, hd]; rfl)

/-- At a known opcode the fault of an operand fetch is the step's. -/
theorem step_opcodeAt_error {s : State} {a : Word} {m : Mnemonic} {f : Fault} (h : OpcodeAt s a m)
    (hd : decodeOperands fetch8 fetch16 m (s.setReg .ip (a + 1)) = .error f) : step s = .fault f :=
  step_of_fetch_error (by rw [fetchInstr_opcodeAt h, hd]; rfl)

/-! ### A word field, then a register byte -/

/-- The operand fetches of an instruction whose fields are a word and then a register byte. -/
def fetchWordReg (mk : Word → Byte → Instr) (s : State) : Except Fault (Instr × State) := do
  let (w, s) ← fetch16 s
  let (b, s) ← fetch8 s
  return (mk w b, s)

/-- The decode phase of `MOV_LIT_REG`. -/
theorem decodeOperands_movLitReg : decodeOperands fetch8 fetch16 .movLitReg = fetchWordReg .movLitReg := rfl

/-- The decode phase of `MOV_MEM_REG`. -/
theorem decodeOperands_movMemReg : decodeOperands fetch8 fetch16 .movMemReg = fetchWordReg .movMemReg := rfl

section
variable {s : State} {a : Word} {m : Mnemonic} {mk : Word → Byte → Instr}
  (hm : decodeOperands fetch8 fetch16 m = fetchWordReg mk) (h : OpcodeAt s a m)
include hm h

/-- A word field not inside Memory faults at its own address. -/
theorem step_wordReg_word_beyond (hw : s.cfg.memLen ≤ (a + 1).toNat + 1) :
    step s = .fault (.memoryFault (a + 1).toNat .word .fetch) := by
  refine step_opcodeAt_error h ?_
  rw [hm, fetchWordReg, fetch16_beyond hw, except_bind_error]

/-- With the word field inside Memory, a register byte outside it faults at its own address. -/
theorem step_wordReg_reg_beyond (hw : (a + 1).toNat + 1 < s.cfg.memLen) (hb : s.cfg.memLen ≤ (a + 3).toNat) :
    step s = .fault (.memoryFault (a + 3).toNat .byte .fetch) := by
  obtain ⟨-, hadv, -⟩ := advance_add a
  refine step_opcodeAt_error h ?_
  simp only [hm, fetchWordReg, fetch16_at hw, except_bind_ok, hadv, fetch8_beyond hb, except_bind_error]

/-- With both fields inside Memory, the instruction of their word and byte is executed with `IP` past them. -/
theorem step_wordReg (hw : (a + 1).toNat + 1 < s.cfg.memLen) (hb : (a + 3).toNat < s.cfg.memLen) :
    ∃ w : Word, w.toNat = s.wordAt (a + 1).toNat ∧
      step s = exec (mk w (s.byteAt (a + 3))) (s.setReg .ip (a + 4)) := by
  obtain ⟨-, hadv, -, -, hadv', -⟩ := advance_add a
  refine ⟨_, joinBytes_wordAt s _, step_opcodeAt_ok h ?_⟩
  simp only [hm, fetchWordReg, fetch16_at hw, except_bind_ok, hadv, fetch8_at hb, hadv']
  rfl

end

/-! ### The two moves -/

/-- Two register writes change those two registers alone. -/
theorem setReg_setReg_changesOnly (s : State) (r r' : Reg) (v v' : Word) :
    ChangesOnly s ((s.setReg r v).setReg r' v') [r, r'] none :=
  ⟨rfl, fun q hq => by simp_all, fun _ _ => rfl⟩

/-- A step that advances `IP` and then writes a word to `d`: what `d` and `IP` hold after it, and its frame. -/
theorem step_advance_setReg {s : State} {next w : Word} {d : Reg} {n : Nat}
    (h : step s = .next ((s.setReg .ip next).setReg d w)) (hw : w.toNat = n) :
    ∃ t, step s = .next t ∧ (t.reg d).toNat = n ∧ (d ≠ .ip → t.reg .ip = next) ∧ ChangesOnly s t [.ip, d] none :=
  ⟨_, h, by simp [hw], fun hd => by simp [hd.symm], setReg_setReg_changesOnly s .ip d next w⟩

/-- `MOV_LIT_REG` writes its literal to the register its byte selects. -/
theorem exec_movLitReg (imm : Word) (b : Byte) (s : State) :
    exec (.movLitReg imm b) s = .next (s.setReg (wrapReg b) imm) := rfl

/-- `MOV_MEM_REG` writes the word it loads to the register its byte selects. -/
theorem exec_movMemReg_ok {s : State} {addr v : Word} (h : s.load16 addr = .ok v) (b : Byte) :
    exec (.movMemReg addr b) s = .next (s.setReg (wrapReg b) v) := by
  rw [exec, execMovMemReg, h]
  rfl

/-- `MOV_MEM_REG` ends in the fault of its load. -/
theorem exec_movMemReg_error {s : State} {addr : Word} {f : Fault} (h : s.load16 addr = .error f) (b : Byte) :
    exec (.movMemReg addr b) s = .fault f := by
  rw [exec, execMovMemReg, h]
  rfl

/-- Settles O27: the fetch faults of its two fields, then one register write after `IP` has moved past them. -/
theorem movLitRegStep : Obligations.MovLitRegStep := by
  refine fun s a hip => ⟨step_ip_beyond hip, fun ha hinj hop => ?_⟩
  have hat : OpcodeAt s a .movLitReg := ⟨hip, ha, hinj, hop⟩
  refine ⟨step_wordReg_word_beyond decodeOperands_movLitReg hat,
    step_wordReg_reg_beyond decodeOperands_movLitReg hat, fun hw hb d hd => ?_⟩
  obtain ⟨imm, himm, hstep⟩ := step_wordReg decodeOperands_movLitReg hat hw hb
  rw [exec_movLitReg, wrapReg_eq hd] at hstep
  exact step_advance_setReg hstep himm

/-- Settles O30: as the literal move, with the load at the fetched address, whose bounds decide fault or completion. -/
theorem movMemRegStep : Obligations.MovMemRegStep := by
  refine fun s a hip => ⟨step_ip_beyond hip, fun ha hinj hop => ?_⟩
  have hat : OpcodeAt s a .movMemReg := ⟨hip, ha, hinj, hop⟩
  refine ⟨step_wordReg_word_beyond decodeOperands_movMemReg hat,
    step_wordReg_reg_beyond decodeOperands_movMemReg hat, fun hw hb d addr hd haddr => ?_⟩
  obtain ⟨w, hfield, hstep⟩ := step_wordReg decodeOperands_movMemReg hat hw hb
  obtain rfl : addr = w.toNat := haddr.trans hfield.symm
  have hload := (load16_setReg s .ip (a + 4) w).trans (load16_eq s w)
  constructor
  · intro hout
    rw [if_neg (not_lt.mpr hout)] at hload
    exact hstep.trans (exec_movMemReg_error hload _)
  · intro hin
    rw [if_pos hin] at hload
    rw [exec_movMemReg_ok hload, wrapReg_eq hd] at hstep
    exact step_advance_setReg hstep (joinBytes_wordAt s w.toNat)

end Sys2Proof.Machine
end

section
/-! PROOFS. The conditional jump whole: both operand words are fetched, then `IP` takes the target or stays past them
(43_jmp.md R120). -/

namespace Sys2Proof.Machine

/-- With `IP` advanced to `next`, `JMP_NOT_EQ` leaves it there when the literal is `ACC`, else it sets the target. -/
theorem exec_jmpNotEq_advanced (imm addr next : Word) (s : State) :
    exec (.jmpNotEq imm addr) (s.setReg .ip next) =
      .next (s.setReg .ip (if imm = s.reg .acc then next else addr)) := by
  have hacc : (s.setReg .ip next).reg .acc = s.reg .acc := by simp
  rw [exec, execJmpNotEq, jumpTaken, hacc, commit_ok]
  by_cases h : imm = s.reg .acc
  · simp [h]
  · simp [h, setReg_setReg]

section
variable {s : State} {a : Word} (h : OpcodeAt s a .jmpNotEq)
include h

/-- A literal not inside Memory faults at its own address. -/
theorem step_jmpNotEq_literal_beyond (hw : s.cfg.memLen ≤ (a + 1).toNat + 1) :
    step s = .fault (.memoryFault (a + 1).toNat .word .fetch) := by
  refine step_opcodeAt_error h ?_
  rw [decodeOperands, fetch16_beyond hw, except_bind_error]

/-- With the literal inside Memory, a target not inside it faults at its own address, whatever `ACC` holds. -/
theorem step_jmpNotEq_target_beyond (hw : (a + 1).toNat + 1 < s.cfg.memLen)
    (ht : s.cfg.memLen ≤ (a + 3).toNat + 1) :
    step s = .fault (.memoryFault (a + 3).toNat .word .fetch) := by
  obtain ⟨-, hadv, -⟩ := advance_add a
  refine step_opcodeAt_error h ?_
  simp only [decodeOperands, fetch16_at hw, except_bind_ok, hadv, fetch16_beyond ht, except_bind_error]

/-- With both words inside Memory the step sets `IP` alone: past them when the literal is `ACC`, else to the target. -/
theorem step_jmpNotEq (hw : (a + 1).toNat + 1 < s.cfg.memLen) (ht : (a + 3).toNat + 1 < s.cfg.memLen) :
    ∃ imm addr : Word, imm.toNat = s.wordAt (a + 1).toNat ∧ addr.toNat = s.wordAt (a + 3).toNat ∧
      step s = .next (s.setReg .ip (if imm = s.reg .acc then a + 5 else addr)) := by
  obtain ⟨-, hadv, -, -, -, hadv'⟩ := advance_add a
  refine ⟨_, _, joinBytes_wordAt s _, joinBytes_wordAt s _,
    (step_opcodeAt_ok h ?_).trans (exec_jmpNotEq_advanced _ _ (a + 5) s)⟩
  simp only [decodeOperands, fetch16_at hw, except_bind_ok, hadv, fetch16_at ht, hadv']
  rfl

end

/-- Settles O39: the fetch faults of its two words, then one write of `IP`, whose value the comparison with `ACC`
selects. -/
theorem jmpNotEqStep : Obligations.JmpNotEqStep := by
  refine fun s a hip => ⟨step_ip_beyond hip, fun ha hinj hop => ?_⟩
  have hat : OpcodeAt s a .jmpNotEq := ⟨hip, ha, hinj, hop⟩
  refine ⟨step_jmpNotEq_literal_beyond hat, step_jmpNotEq_target_beyond hat, fun hw ht => ?_⟩
  obtain ⟨imm, addr, himm, haddr, hstep⟩ := step_jmpNotEq hat hw ht
  refine ⟨_, hstep, setReg_changesOnly s .ip _, ?taken, ?sequential⟩ <;> rw [← himm, setReg_reg, if_pos rfl]
  case taken =>
    intro hne
    rw [if_neg (mt (congrArg BitVec.toNat) hne), haddr]
  case sequential =>
    intro heq
    rw [if_pos (BitVec.eq_of_toNat_eq heq)]

end Sys2Proof.Machine
end

section
/-! PROOFS. What the execute phase leaves unchanged in the register file, and the frame pointer: no instruction uses
`FP` but through a register operand (10_state.md R31, R38, 44_stack.md R138). -/

namespace Sys2Proof.Machine

/-! ### Registers the shared operations leave unchanged -/

/-- A push writes no register but `SP`. -/
theorem push_reg {v : Word} {s t : State} (h : push v s = .ok t) {r : Reg} (hr : r ≠ .sp) : t.reg r = s.reg r := by
  rcases push_cases v s with ⟨-, -, hp⟩ | ⟨-, hp⟩ | ⟨-, -, hp⟩ <;> cases h.symm.trans hp
  rw [assign_reg, if_neg hr, setMem_reg]

/-- A pop writes no register but `SP`. -/
theorem pop_reg {v : Word} {s t : State} (h : pop s = .ok (v, t)) {r : Reg} (hr : r ≠ .sp) : t.reg r = s.reg r := by
  rcases pop_cases s with ⟨-, hp⟩ | ⟨-, hp⟩ <;> cases h.symm.trans hp
  rw [setReg_reg, if_neg hr]

/-- A write through an operand byte changes no register but the one the byte selects. -/
theorem setOperand_reg {r : Reg} {b : Byte} (h : r ≠ wrapReg b) (s : State) (v : Word) :
    (s.setOperand b v).reg r = s.reg r := by
  rw [State.setOperand, setReg_reg, if_neg h]

/-! ### The execute phase -/

/-- `ADD_REG_REG` writes no register but `ACC`. -/
theorem execAddRegReg_reg {regA regB : Byte} {s t : State} (h : execAddRegReg regA regB s = .next t) {r : Reg}
    (hr : r ≠ .acc) : t.reg r = s.reg r := by
  obtain ⟨ra, -, h⟩ := except_bind_eq_ok.mp (commit_eq_next.mp h)
  obtain ⟨rb, -, h⟩ := except_bind_eq_ok.mp h
  cases h
  rw [assign_reg, if_neg hr]

/-- `JMP_NOT_EQ` writes no register but `IP`. -/
theorem execJmpNotEq_reg {imm addr : Word} {s t : State} (h : execJmpNotEq imm addr s = .next t) {r : Reg}
    (hr : r ≠ .ip) : t.reg r = s.reg r := by
  rw [execJmpNotEq, commit_ok] at h
  cases h
  split_ifs
  · rw [setReg_reg, if_neg hr]
  · rfl

/-- The execute phase leaves every register that is not among the instruction's destinations unchanged. -/
theorem exec_reg {i : Instr} {s t : State} (h : exec i s = .next t) {r : Reg} (hr : r ∉ i.dests) :
    t.reg r = s.reg r := by
  cases i <;> simp only [Instr.dests, List.mem_cons, List.not_mem_nil, or_false, not_or] at hr <;>
    simp only [exec] at h
  case movLitReg imm reg =>
    cases h
    exact setOperand_reg hr s imm
  case movRegReg regFrom regTo =>
    cases h
    exact setOperand_reg hr s _
  case movRegMem reg addr => exact store16_reg (commit_eq_next.mp h) r
  case movMemReg addr reg =>
    obtain ⟨w, -, rfl⟩ := except_map_eq_ok.mp (commit_eq_next.mp h)
    exact setOperand_reg hr s w
  case addRegReg regA regB => exact execAddRegReg_reg h hr
  case jmpNotEq imm addr => exact execJmpNotEq_reg h hr
  case pshLit imm => exact push_reg (commit_eq_next.mp h) hr
  case pshReg reg => exact push_reg (commit_eq_next.mp h) hr
  case pop reg =>
    obtain ⟨⟨w, u⟩, hp, rfl⟩ := except_map_eq_ok.mp (commit_eq_next.mp h)
    exact (setOperand_reg hr.2 u w).trans (pop_reg hp hr.1)

/-! ### The frame pointer -/

/-- `FP` is no implicit destination: it is among an instruction's destinations only as its destination operand. -/
theorem destOperand_of_fp_mem_dests {i : Instr} (h : .fp ∈ i.dests) : i.destOperand = some .fp := by
  cases i
  case movLitReg | movRegReg | movMemReg | pop => simpa [Instr.dests, Instr.destOperand, eq_comm] using h
  case movRegMem | addRegReg | jmpNotEq | pshLit | pshReg => simp [Instr.dests] at h

/-- The execute phase of an instruction whose destination operand is not `FP` leaves `FP` unchanged. -/
theorem exec_fp {i : Instr} {s t : State} (hd : i.destOperand ≠ some .fp) (h : exec i s = .next t) :
    t.reg .fp = s.reg .fp :=
  exec_reg h (mt destOperand_of_fp_mem_dests hd)

/-- A step that changes `FP` executed an instruction with `FP` as its destination operand. -/
theorem step_fp {s t : State} (h : step s = .next t) (hne : t.reg .fp ≠ s.reg .fp) :
    ∃ i s', fetchInstr s = .ok (.instruction i s') ∧ i.destOperand = some .fp := by
  obtain ⟨rfl, -, -⟩ | ⟨i, s', hf, ⟨v, rfl⟩, he⟩ := step_cases h
  · simp at hne
  · refine ⟨i, _, hf, by_contra fun hd => hne ?_⟩
    rw [exec_fp hd he, setReg_reg, if_neg (by decide)]

@[simp] theorem constructed_fp (c : Config) (m : Memory) :
    (State.constructed c m).reg .fp = truncWord ((c.memLen : Int) - 2) := rfl

@[simp] theorem constructed_sp (c : Config) (m : Memory) :
    (State.constructed c m).reg .sp = truncWord ((c.memLen : Int) - 2) := rfl

/-- Construction sets `FP` and `SP` alike, to the highest slot of Memory. -/
theorem construct_fp {cfg : Config} {memInit : Nat → Byte} {s : State} (h : construct cfg memInit = .next s) :
    (s.reg .fp).toNat = cfg.memLen - 2 ∧ s.reg .fp = s.reg .sp := by
  unfold construct at h
  split_ifs at h with hwf
  cases h
  obtain ⟨hlo, hhi, -, -⟩ := hwf
  have htop := truncWord_toNat ((cfg.memLen : Int) - 2)
  rw [constructed_fp, constructed_sp]
  exact ⟨by omega, rfl⟩

/-- Settles O53: `FP` is neither an implicit destination of any instruction nor one of the three registers
instructions read implicitly. -/
theorem framePointerOnlyByOperand : Obligations.FramePointerOnlyByOperand := by
  refine ⟨fun _ _ _ => construct_fp, fun _ _ _ h => push_reg h (by decide), fun _ _ _ h => pop_reg h (by decide),
    fun _ _ _ => exec_fp, ?stepWrites, ?unread⟩
  case stepWrites =>
    intro s t h hne
    obtain ⟨i, s', hf, hd⟩ := step_fp h hne
    exact ⟨i, s', hf, .fp, hd, rfl⟩
  case unread =>
    intro s r x hr
    obtain rfl : Reg.fp = r := Option.some.inj (regOfIndex_eq_some.mpr hr)
    have hip : Reg.fp ≠ .ip := by decide
    have hacc : Reg.fp ≠ .acc := by decide
    have hsp : Reg.fp ≠ .sp := by decide
    exact ⟨push_setReg hsp s x, pop_setReg hsp s x, fun _ h => exec_setReg hip hacc hsp s x h,
      fun _ _ hf h => step_setReg hip hacc hsp x hf h⟩

end Sys2Proof.Machine
end

section
/-! PROOFS. The encoding and the decoder are inverse to each other, and the opcode byte alone decides which instruction
the bytes are and how many of them it takes (30_encoding.md R65 to R72). -/

namespace Sys2Proof

open Sys2Proof.Machine (except_bind_eq_ok joinBytes joinBytes_toNat hiByte_joinBytes loByte_joinBytes)

/-! ### The decode phase over a list of bytes -/

/-- The operand fields a list of bytes decodes to are the ones whose encoding it starts with. -/
theorem decodeOperands_eq_ok (opc : OpcodeMap) {m : Mnemonic} {l rest : List Byte} {i : Instr} :
    decodeOperands takeByte takeWord m l = .ok (i, rest) ↔
      i.mnemonic = m ∧ opcodeByte opc m :: l = encode opc i ++ rest := by
  constructor
  · intro h
    cases m <;> simp only [decodeOperands, except_bind_eq_ok, Prod.exists, pure, Except.pure, Except.ok.injEq,
      Prod.mk.injEq, takeByte_eq_ok, takeWord_eq_ok] at h
    case pshLit | pshReg | pop =>
      obtain ⟨x, _, rfl, rfl, rfl⟩ := h
      exact ⟨rfl, rfl⟩
    all_goals
      obtain ⟨x, _, rfl, y, _, rfl, rfl, rfl⟩ := h
      exact ⟨rfl, rfl⟩
  · rintro ⟨rfl, h⟩
    cases i <;> obtain rfl := (List.cons.inj h).2 <;>
      simp [Instr.mnemonic, decodeOperands, takeByte, takeWord, wordField, pure, Except.pure]

/-- A known opcode byte leaves the rest of the list to the decode phase of its operand fields. -/
theorem decode_cons {opc : OpcodeMap} {op : Byte} {m : Mnemonic} (h : selectOpcode opc op = some m)
    (l : List Byte) : decode opc (op :: l) = decodeOperands takeByte takeWord m l := by
  simp only [decode, h]

/-- An unknown opcode byte is refused by name. -/
theorem decode_unknown {opc : OpcodeMap} {op : Byte} (h : selectOpcode opc op = none) (l : List Byte) :
    decode opc (op :: l) = .error (.unknownOpcode op) := by
  simp only [decode, h]

/-- Every encoding starts with the opcode byte of its mnemonic. -/
theorem encode_eq_cons (opc : OpcodeMap) (i : Instr) :
    encode opc i = opcodeByte opc i.mnemonic :: (encode opc i).tail := by
  cases i <;> rfl

/-- Every encoding has the length its opcode fixes. -/
theorem encode_length (opc : OpcodeMap) (i : Instr) : (encode opc i).length = instrLength i.mnemonic := by
  cases i <;> rfl

/-- Settles O1: the opcode byte selects the mnemonic it was taken from, and the fields are read as they were laid
out. -/
theorem decodeEncodeRoundTrip : Obligations.DecodeEncodeRoundTrip := by
  intro opc i rest h
  have hop := encode_eq_cons opc i
  rw [hop, List.cons_append, decode_cons (selectOpcode_opcodeByte h i.mnemonic)]
  refine (decodeOperands_eq_ok opc).mpr ⟨rfl, ?_⟩
  rw [← List.cons_append, ← hop]

/-- Settles O2: the byte that selected the mnemonic is its opcode byte, so nothing of the list is lost. -/
theorem decodedBytesAreTheEncoding : Obligations.DecodedBytesAreTheEncoding := by
  intro opc bytes rest i h
  cases bytes with
  | nil => cases h
  | cons op l =>
    cases hs : selectOpcode opc op with
    | none =>
      rw [decode_unknown hs] at h
      cases h
    | some m =>
      rw [decode_cons hs] at h
      rw [← opcodeByte_of_select hs]
      exact ((decodeOperands_eq_ok opc).mp h).2

/-! ### The formats -/

/-- Two bytes joined, as the number they stand for. -/
theorem joinBytes_eq_ofNat (hi lo : Byte) : joinBytes hi lo = BitVec.ofNat 16 (hi.toNat * 256 + lo.toNat) := by
  rw [← joinBytes_toNat, BitVec.ofNat_toNat, BitVec.setWidth_eq]

/-- The field of two joined bytes is the two bytes, the high one first. -/
theorem wordField_joinBytes (hi lo : Byte) : wordField (joinBytes hi lo) = [hi, lo] := by
  rw [wordField, hiByte_joinBytes, loByte_joinBytes]

/-- A list that is an encoding decodes to its instruction and leaves nothing. -/
theorem decode_of_eq_encode {opc : OpcodeMap} (h : opc.Injective) {l : List Byte} {i : Instr} (hl : l = encode opc i) :
    decode opc l = .ok (i, []) := by
  rw [hl, ← List.append_nil (encode opc i)]
  exact decodeEncodeRoundTrip opc i [] h

/-- Settles O3: each list is the encoding of its instruction, two neighbouring bytes being the field of the word they
join to. -/
theorem formatsDecodeInFieldOrder : Obligations.FormatsDecodeInFieldOrder := by
  intro opc b c d e h
  simp only [← joinBytes_eq_ofNat]
  refine ⟨?_, ?_, ?_, ?_, ?_, ?_, ?_, ?_, ?_⟩ <;> refine decode_of_eq_encode h ?_ <;>
    simp only [encode, wordField_joinBytes, List.cons_append, List.nil_append]

/-- Settles O4: six encodings under the default map, and a byte it gives to no mnemonic. -/
theorem defaultWordsDecode : Obligations.DefaultWordsDecode :=
  ⟨rfl, rfl, rfl, rfl, rfl, rfl, rfl⟩

/-! ### Lengths -/

theorem except_bind_eq_error {ε α β : Type} {x : Except ε α} {f : α → Except ε β} {e : ε} :
    (x >>= f) = .error e ↔ x = .error e ∨ ∃ a, x = .ok a ∧ f a = .error e := by
  cases x <;> simp

theorem takeByte_eq_error {l : List Byte} {e : DecodeError} :
    takeByte l = .error e ↔ l.length < 1 ∧ e = .truncated := by
  cases l <;> simp [takeByte, eq_comm]

theorem takeWord_eq_error {l : List Byte} {e : DecodeError} :
    takeWord l = .error e ↔ l.length < 2 ∧ e = .truncated := by
  match l with
  | [] | [_] => simp [takeWord, eq_comm]
  | _ :: _ :: _ => simp [takeWord]

/-- The decode phase over a list fails only when the list ends before the last field does. -/
theorem decodeOperands_error {m : Mnemonic} {l : List Byte} {e : DecodeError}
    (h : decodeOperands takeByte takeWord m l = .error e) : e = .truncated ∧ l.length + 1 < instrLength m := by
  cases m <;> simp only [decodeOperands, except_bind_eq_error, Prod.exists, takeByte_eq_error, takeWord_eq_error,
    takeByte_eq_ok, takeWord_eq_ok, pure, Except.pure, reduceCtorEq, and_false, exists_false, or_false] at h
  case pshLit | pshReg | pop => exact ⟨h.2, Nat.add_lt_add_right h.1 1⟩
  all_goals
    obtain ⟨hlen, rfl⟩ | ⟨x, l', rfl, hlen, rfl⟩ := h <;>
      simp [instrLength, operandFields, fieldSize, wordField] <;> omega

/-- A list that decodes is as long as the instruction and what is left over. -/
theorem decodeOperands_length {m : Mnemonic} {l rest : List Byte} {i : Instr}
    (h : decodeOperands takeByte takeWord m l = .ok (i, rest)) : l.length + 1 = instrLength m + rest.length := by
  obtain ⟨rfl, hl⟩ := (decodeOperands_eq_ok defaultOpc).mp h
  have hlen := congrArg List.length hl
  rwa [List.length_cons, List.length_append, encode_length] at hlen

/-- Settles O5: a decode phase that succeeds accounts for every byte, one that fails lacks some. -/
theorem opcodeByteFixesInstructionAndLength : Obligations.OpcodeByteFixesInstructionAndLength := by
  refine fun opc op bytes => ⟨rfl, fun h => decode_unknown h bytes, fun m hm => ?_⟩
  rw [decode_cons hm]
  cases h : decodeOperands takeByte takeWord m bytes with
  | error e =>
    obtain ⟨rfl, hshort⟩ := decodeOperands_error h
    exact ⟨fun _ => rfl, fun hlong => absurd hshort (not_lt.mpr hlong)⟩
  | ok p =>
    have hlen := decodeOperands_length h
    exact ⟨fun hshort => absurd hlen (by omega),
      fun _ => ⟨p.1, p.2, rfl, ((decodeOperands_eq_ok opc).mp h).1, hlen⟩⟩

/-! ### The unknown opcodes -/

/-- The byte values, each once. -/
theorem nodup_range_byte : ((List.range 256).map (BitVec.ofNat 8)).Nodup := by
  refine List.Nodup.map_on (fun x hx y hy h => ?_) List.nodup_range
  have h := congrArg BitVec.toNat h
  simp only [BitVec.toNat_ofNat, List.mem_range] at h hx hy
  omega

theorem mem_range_byte (b : Byte) : b ∈ (List.range 256).map (BitVec.ofNat 8) :=
  List.mem_map.mpr ⟨b.toNat, List.mem_range.mpr b.isLt, by simp⟩

/-- A list of bytes without repetition is met by as many of the byte values as it is long. -/
theorem length_filter_mem_range {l : List Byte} (h : l.Nodup) :
    ((List.range 256).filter fun n => BitVec.ofNat 8 n ∈ l).length = l.length := by
  have hperm : (((List.range 256).map (BitVec.ofNat 8)).filter (· ∈ l)).Perm l :=
    (List.perm_ext_iff_of_nodup (nodup_range_byte.filter _) h).mpr fun b => by
      simp [List.mem_filter, mem_range_byte b]
  rw [← hperm.length_eq, List.filter_map, List.length_map]
  rfl

/-- Settles O6: the byte values that select a mnemonic are the nine of the map, which are all different. -/
theorem unknownOpcodesNumber247 : Obligations.UnknownOpcodesNumber247 := by
  intro opc h
  have hknown : ((List.range 256).filter fun n => BitVec.ofNat 8 n ∈ opc.bytes).length = 9 :=
    length_filter_mem_range h
  have hsum := List.length_eq_length_filter_add (l := List.range 256) fun n => decide (BitVec.ofNat 8 n ∈ opc.bytes)
  simp only [selectOpcode_eq_none, decide_not]
  rw [List.length_range, hknown] at hsum
  omega

end Sys2Proof
end

section
/-! PROOFS. The driver's accessors, the loader's byte write, and the registers as the operand bytes select them
(10_state.md R22 to R25, 20_memory.md R42, R46, R57). -/

namespace Sys2Proof.Machine

/-! ### Registers -/

/-- Settles O7: the narrowing of the integer, then the frame of a register write. -/
theorem registerWriteTruncates : Obligations.RegisterWriteTruncates := by
  refine fun s r v => ⟨?_, setReg_changesOnly s r (truncWord v)⟩
  rw [assign_reg, if_pos rfl, truncWord_toNat]

/-- A read through an operand byte after a write through one. -/
theorem operand_setOperand (s : State) (b c : Byte) (v : Word) :
    (s.setOperand b v).operand c = if b.toNat % 12 = c.toNat % 12 then v else s.operand c := by
  simp only [State.operand, State.setOperand, setReg_reg, wrapReg_eq_iff, eq_comm]

/-- Settles O8: two bytes name one register exactly when they agree mod 12. -/
theorem wrappedOperandIsRegisterModTwelve : Obligations.WrappedOperandIsRegisterModTwelve := by
  refine fun s b c v => ⟨regIndex_wrapReg b, ?_, operand_setOperand s b c v⟩
  have := regIndex_lt (wrapReg b)
  unfold regOffset
  omega

/-- A register's name declares that register. -/
theorem regOfName_regName (r : Reg) : regOfName (regName r) = some r := by
  cases r <;> decide

/-- A string that is no register's name declares none. -/
theorem regOfName_eq_none {name : String} (h : ∀ r, regName r ≠ name) : regOfName name = none :=
  List.find?_eq_none.mpr fun r _ => by simpa using h r

/-- Settles O9: the accessor follows the names of the registers. -/
theorem namedReadKnowsExactlyTheTwelve : Obligations.NamedReadKnowsExactlyTheTwelve :=
  fun _ => ⟨fun r => by rw [readRegister, regOfName_regName],
    fun _ h => by rw [readRegister, regOfName_eq_none h]⟩

/-! ### Memory -/

/-- A narrowed integer as a byte. -/
theorem truncByte_toNat (v : Int) : ((truncByte v).toNat : Int) = v % 256 := by
  simp only [truncByte, BitVec.toNat_ofInt]
  omega

/-- Settles O13: one byte is set, or the bounds check faults. -/
theorem loaderByteWrite : Obligations.LoaderByteWrite := by
  refine fun n m a v => ⟨fun h0 hN => ⟨_, if_neg (by omega), ?_, fun c hc => ?_⟩, fun h => if_pos (by omega)⟩
  · rw [memByte_memSet, if_pos rfl, truncByte_toNat]
  · rw [memByte_memSet, if_neg hc]

/-- A word write that succeeds had both bytes inside Memory, and set them. -/
theorem memWrite16_eq_ok {n : Nat} {m m' : Memory} {a v : Int} (h : memWrite16 n m a v = .ok m') :
    0 ≤ a ∧ a + 1 < n ∧
      m' = memSet (memSet m a.toNat (hiByte (truncWord v))) (a.toNat + 1) (loByte (truncWord v)) := by
  by_cases hb : 0 ≤ a ∧ a + 1 < n
  · rw [memWrite16_ok hb.1 hb.2] at h
    exact ⟨hb.1, hb.2, (Except.ok.inj h).symm⟩
  · rw [memWrite16_error hb] at h
    cases h

/-- Settles O14: of the two writes only the second reaches the byte they share. -/
theorem overlappingWordsShareAByte : Obligations.OverlappingWordsShareAByte := by
  intro n m m1 m2 a v w k h1 h2
  obtain ⟨h0, hN, rfl⟩ := memWrite16_eq_ok h1
  obtain ⟨-, -, rfl⟩ := memWrite16_eq_ok h2
  have hnext : (a + 1).toNat = a.toNat + 1 := by omega
  have hapart : a.toNat ≠ a.toNat + 1 + 1 := by omega
  refine ⟨_, memRead16_ok h0 hN _ k, ?_⟩
  simp [hnext, hapart, joinBytes_toNat, hiByte_toNat]

/-- Settles O18: a window is as long as asked for, and each of its bytes is the one at its place. -/
theorem memoryWindowRead : Obligations.MemoryWindowRead := by
  refine fun s a len => ⟨fun h0 hlen hN => ⟨_, if_pos ⟨h0, hlen, hN⟩, ?_, fun k hk => ?_⟩,
    fun h => ⟨_, _, if_neg h⟩⟩
  · simpa using hlen
  · rw [List.length_map, List.length_range] at hk
    simp [hk]

/-! ### A word stored -/

/-- The state with a word at an address of Memory, the high byte first. -/
def State.storeWord (s : State) (a : Nat) (w : Word) : State :=
  s.setMem (memSet (memSet s.mem a (hiByte w)) (a + 1) (loByte w))

@[simp] theorem storeWord_high (s : State) (a : Nat) (w : Word) : memByte (s.storeWord a w).mem a = hiByte w := by
  simp [State.storeWord]

@[simp] theorem storeWord_low (s : State) (a : Nat) (w : Word) :
    memByte (s.storeWord a w).mem (a + 1) = loByte w := by
  simp [State.storeWord]

/-- A word stored changes the two bytes at its address alone. -/
theorem storeWord_changesOnly (s : State) (a : Nat) (w : Word) : ChangesOnly s (s.storeWord a w) [] (some a) := by
  refine ⟨rfl, fun _ _ => rfl, fun c hc => ?_⟩
  obtain ⟨hhi, hlo⟩ := hc a rfl
  simp [State.storeWord, hhi, hlo]

/-- The big-endian word at an address, as a word. -/
def State.memWord (s : State) (a : Nat) : Word := joinBytes (memByte s.mem a) (memByte s.mem (a + 1))

@[simp] theorem memWord_toNat (s : State) (a : Nat) : (s.memWord a).toNat = s.wordAt a := joinBytes_wordAt s a

@[simp] theorem memWord_setReg (s : State) (r : Reg) (v : Word) (a : Nat) :
    (s.setReg r v).memWord a = s.memWord a := rfl

@[simp] theorem memWord_storeWord (s : State) (a : Nat) (w : Word) : (s.storeWord a w).memWord a = w := by
  simp [State.memWord]

@[simp] theorem wordAt_storeWord (s : State) (a : Nat) (w : Word) : (s.storeWord a w).wordAt a = w.toNat := by
  rw [← memWord_toNat, memWord_storeWord]

/-- A data read yields the word at its address. -/
theorem load16_ok {s : State} {addr : Word} (h : addr.toNat + 1 < s.cfg.memLen) :
    s.load16 addr = .ok (s.memWord addr.toNat) :=
  (load16_eq s addr).trans (if_pos h)

/-- A data read not inside Memory faults. -/
theorem load16_error {s : State} {addr : Word} (h : s.cfg.memLen ≤ addr.toNat + 1) :
    s.load16 addr = .error (.memoryFault addr.toNat .word .read) :=
  (load16_eq s addr).trans (if_neg (not_lt.mpr h))

/-- A data write stores its word. -/
theorem store16_ok {s : State} {addr : Word} (h : addr.toNat + 1 < s.cfg.memLen) (w : Word) :
    s.store16 addr w = .ok (s.storeWord addr.toNat w) :=
  (store16_eq s addr w).trans (if_pos h)

/-- A data write not inside Memory faults. -/
theorem store16_error {s : State} {addr : Word} (h : s.cfg.memLen ≤ addr.toNat + 1) (w : Word) :
    s.store16 addr w = .error (.memoryFault addr.toNat .word .write) :=
  (store16_eq s addr w).trans (if_neg (not_lt.mpr h))

/-- A data write that succeeds stored its word inside Memory. -/
theorem store16_eq_ok {s t : State} {addr w : Word} (h : s.store16 addr w = .ok t) :
    addr.toNat + 1 < s.cfg.memLen ∧ t = s.storeWord addr.toNat w := by
  by_cases hb : addr.toNat + 1 < s.cfg.memLen
  · exact ⟨hb, (Except.ok.inj ((store16_ok hb w).symm.trans h)).symm⟩
  · cases (store16_error (not_lt.mp hb) w).symm.trans h

/-! ### Frames one after another -/

/-- What changes only some registers, and then what changes only some registers and one stored word, changes only
these registers and that word. -/
theorem changesOnly_trans {s t u : State} {ds es : List Reg} {stored : Option Nat} (h : ChangesOnly s t ds none)
    (h' : ChangesOnly t u es stored) : ChangesOnly s u (ds ++ es) stored := by
  obtain ⟨hcfg, hreg, hmem⟩ := h
  obtain ⟨hcfg', hreg', hmem'⟩ := h'
  refine ⟨hcfg'.trans hcfg, fun r hr => ?_, fun a ha => ?_⟩
  · rw [List.mem_append, not_or] at hr
    exact (hreg' r hr.2).trans (hreg r hr.1)
  · exact (hmem' a ha).trans (hmem a (by simp))

/-- What changes only a stored word, and then changes only some registers, changes only that word and these. -/
theorem changesOnly_store_trans {s t u : State} {ds : List Reg} {stored : Option Nat}
    (h : ChangesOnly s t [] stored) (h' : ChangesOnly t u ds none) : ChangesOnly s u ds stored := by
  obtain ⟨hcfg, hreg, hmem⟩ := h
  obtain ⟨hcfg', hreg', hmem'⟩ := h'
  exact ⟨hcfg'.trans hcfg, fun r hr => (hreg' r hr).trans (hreg r (by simp)),
    fun a ha => (hmem' a (by simp)).trans (hmem a ha)⟩

/-- A word that shares no byte with the one stored stays as it was. -/
theorem changesOnly_wordAt {s t : State} {ds : List Reg} {stored : Option Nat} (h : ChangesOnly s t ds stored)
    {a : Nat} (ha : ∀ b, stored = some b → a + 1 < b ∨ b + 1 < a) : t.wordAt a = s.wordAt a := by
  obtain ⟨-, -, hmem⟩ := h
  rw [State.wordAt, State.wordAt, hmem a fun b hb => by have := ha b hb; omega,
    hmem (a + 1) fun b hb => by have := ha b hb; omega]

end Sys2Proof.Machine
end

section
/-! PROOFS. The execute phase of each instruction: the state it answers or the fault it raises, said once per
instruction, and what follows about its result and its frame (41_mov.md, 42_add.md, 43_jmp.md, 44_stack.md). -/

namespace Sys2Proof.Machine

/-! ### The moves -/

/-- `MOV_REG_REG` writes the value of the one register to the other. -/
theorem exec_movRegReg (regFrom regTo : Byte) (s : State) :
    exec (.movRegReg regFrom regTo) s = .next (s.setReg (wrapReg regTo) (s.operand regFrom)) := rfl

/-- `MOV_REG_MEM` stores the value of its register. -/
theorem exec_movRegMem_ok {s : State} {addr : Word} (h : addr.toNat + 1 < s.cfg.memLen) (b : Byte) :
    exec (.movRegMem b addr) s = .next (s.storeWord addr.toNat (s.operand b)) :=
  commit_eq_next.mpr (store16_ok h _)

/-- `MOV_REG_MEM` ends in the fault of its store. -/
theorem exec_movRegMem_error {s : State} {addr : Word} (h : s.cfg.memLen ≤ addr.toNat + 1) (b : Byte) :
    exec (.movRegMem b addr) s = .fault (.memoryFault addr.toNat .word .write) :=
  commit_eq_fault.mpr (store16_error h _)

/-- A register that a byte selects, read after it was written. -/
theorem operand_setReg_wrapReg (s : State) (b : Byte) (v : Word) : (s.setReg (wrapReg b) v).operand b = v := by
  rw [State.operand, setReg_reg, if_pos rfl]

/-- Settles O31: both are one register write. -/
theorem registerMovesComplete : Obligations.RegisterMovesComplete := fun s =>
  ⟨fun imm reg => ⟨_, exec_movLitReg imm reg s, operand_setReg_wrapReg .., setReg_changesOnly ..⟩,
    fun regFrom regTo => ⟨_, exec_movRegReg regFrom regTo s, operand_setReg_wrapReg .., setReg_changesOnly ..⟩⟩

/-- Settles O32: one register write of the word loaded, and one word stored. -/
theorem loadAndStoreComplete : Obligations.LoadAndStoreComplete := by
  refine fun s addr reg h => ⟨⟨_, exec_movMemReg_ok (load16_ok h) reg, ?_, setReg_changesOnly ..⟩,
    _, exec_movRegMem_ok h reg, ?_, ?_, storeWord_changesOnly ..⟩
  · rw [operand_setReg_wrapReg, memWord_toNat]
  · rw [storeWord_high, hiByte_toNat]
  · rw [storeWord_low, loByte_toNat]

/-- Settles O33: the bounds of the two accesses. -/
theorem loadAndStoreFaultOutOfBounds : Obligations.LoadAndStoreFaultOutOfBounds := fun _ _ reg h =>
  ⟨exec_movMemReg_error (load16_error h) reg, exec_movRegMem_error h reg⟩

/-! ### Addition -/

/-- Two words added as integers and narrowed are their wrapping sum. -/
theorem truncWord_add_word (v w : Word) : truncWord ((v.toNat : Int) + w.toNat) = v + w := by
  rw [truncWord_add, BitVec.ofNat_toNat, BitVec.setWidth_eq]

/-- `ADD_REG_REG` with two legal indices writes the wrapping sum to `ACC`. -/
theorem exec_addRegReg_ok {regA regB : Byte} (hA : regA.toNat < 12) (hB : regB.toNat < 12) (s : State) :
    exec (.addRegReg regA regB) s = .next (s.setReg .acc (s.operand regA + s.operand regB)) := by
  rw [exec, execAddRegReg, rawReg_ok hA, rawReg_ok hB, ← truncWord_add_word]
  rfl

/-- An illegal first index is the fault, whatever the second is. -/
theorem exec_addRegReg_first_illegal {regA : Byte} (hA : 12 ≤ regA.toNat) (regB : Byte) (s : State) :
    exec (.addRegReg regA regB) s = .fault (.invalidRegister (.index regA)) := by
  rw [exec, execAddRegReg, rawReg_error hA]
  rfl

/-- After a legal first index an illegal second one is the fault. -/
theorem exec_addRegReg_second_illegal {regA regB : Byte} (hA : regA.toNat < 12) (hB : 12 ≤ regB.toNat) (s : State) :
    exec (.addRegReg regA regB) s = .fault (.invalidRegister (.index regB)) := by
  rw [exec, execAddRegReg, rawReg_ok hA, rawReg_error hB]
  rfl

/-- Settles O36: the first index is checked before the second. -/
theorem addRejectsRawIndexFromTwelve : Obligations.AddRejectsRawIndexFromTwelve := fun s _ regB =>
  ⟨fun hA => exec_addRegReg_first_illegal hA regB s, fun hA hB => exec_addRegReg_second_illegal hA hB s⟩

/-- A raw byte that is a register's index is legal and selects that register. -/
theorem wrapReg_of_rawIndex {b : Byte} {r : Reg} (h : regIndex r = b.toNat) : b.toNat < 12 ∧ wrapReg b = r := by
  have hlt := regIndex_lt r
  rw [h] at hlt
  exact ⟨hlt, wrapReg_eq (h.trans (Nat.mod_eq_of_lt hlt).symm)⟩

/-- Settles O35: one write of the wrapping sum. -/
theorem addWrapsIntoAcc : Obligations.AddWrapsIntoAcc := by
  intro s regA regB ra rb hra hrb
  obtain ⟨hA, rfl⟩ := wrapReg_of_rawIndex hra
  obtain ⟨hB, rfl⟩ := wrapReg_of_rawIndex hrb
  refine ⟨_, exec_addRegReg_ok hA hB s, ?_, setReg_changesOnly ..⟩
  rw [setReg_reg, if_pos rfl]
  exact BitVec.toNat_add _ _

/-! ### The jump -/

/-- A register written with what it holds. -/
theorem setReg_self (s : State) (r : Reg) : s.setReg r (s.reg r) = s :=
  state_ext rfl (fun q => by rw [setReg_reg]; split_ifs with h <;> simp [h]) rfl

/-- `JMP_NOT_EQ` writes `IP`: the target, or what it holds when the literal is `ACC`. -/
theorem exec_jmpNotEq (imm addr : Word) (s : State) :
    exec (.jmpNotEq imm addr) s = .next (s.setReg .ip (if imm = s.reg .acc then s.reg .ip else addr)) := by
  rw [← exec_jmpNotEq_advanced, setReg_self]

/-- Settles O38: two words are equal when their numbers are. -/
theorem jumpTakenIffNotEqual : Obligations.JumpTakenIffNotEqual := by
  refine fun s imm addr => ⟨_, exec_jmpNotEq imm addr s, ?_, setReg_changesOnly ..⟩
  rw [setReg_reg, if_pos rfl]
  simp only [BitVec.toNat_inj]

/-! ### The pushes -/

/-- Two less than a word, narrowed, is the wrapping step down. -/
theorem truncWord_sub_two (w : Word) : truncWord ((w.toNat : Int) - 2) = w - 2 := by
  apply BitVec.eq_of_toNat_eq
  have := truncWord_toNat ((w.toNat : Int) - 2)
  have := w.isLt
  have htwo : (2 : Word).toNat = 2 := rfl
  rw [BitVec.toNat_sub, htwo]
  omega

/-- The state a push of a word leaves. -/
def State.pushed (s : State) (v : Word) : State := (s.storeWord (s.reg .sp).toNat v).setReg .sp (s.reg .sp - 2)

/-- A push on a legal slot. -/
theorem push_legal {s : State} (hN : (s.reg .sp).toNat + 1 < s.cfg.memLen)
    (hL : s.cfg.stackLow + 2 ≤ (s.reg .sp).toNat) (v : Word) : push v s = .ok (s.pushed v) := by
  rw [push_ok hN hL, State.assign, truncWord_sub_two]
  rfl

/-- A push whose slot is not inside Memory faults there. -/
theorem push_slot_beyond {s : State} (hN : s.cfg.memLen ≤ (s.reg .sp).toNat + 1) (v : Word) :
    push v s = .error (.memoryFault (s.reg .sp).toNat .word .write) := by
  obtain ⟨h, -, -⟩ | ⟨-, h⟩ | ⟨h, -, -⟩ := push_cases v s
  · omega
  · exact h
  · omega

/-- A push on a slot inside Memory that would pass the low-water mark overflows. -/
theorem push_overflows {s : State} (hN : (s.reg .sp).toNat + 1 < s.cfg.memLen)
    (hL : (s.reg .sp).toNat < s.cfg.stackLow + 2) (v : Word) : push v s = .error (.stackOverflow (s.reg .sp)) := by
  obtain ⟨-, h, -⟩ | ⟨h, -⟩ | ⟨-, -, h⟩ := push_cases v s
  · omega
  · omega
  · exact h

/-- A push that succeeds had a legal slot. -/
theorem push_eq_ok {v : Word} {s t : State} (h : push v s = .ok t) :
    (s.reg .sp).toNat + 1 < s.cfg.memLen ∧ s.cfg.stackLow + 2 ≤ (s.reg .sp).toNat ∧ t = s.pushed v := by
  obtain ⟨hN, hL, -⟩ | ⟨-, hp⟩ | ⟨-, -, hp⟩ := push_cases v s
  · exact ⟨hN, hL, (Except.ok.inj ((push_legal hN hL v).symm.trans h)).symm⟩
  · cases h.symm.trans hp
  · cases h.symm.trans hp

@[simp] theorem pushed_cfg (s : State) (v : Word) : (s.pushed v).cfg = s.cfg := rfl

@[simp] theorem pushed_high (s : State) (v : Word) : memByte (s.pushed v).mem (s.reg .sp).toNat = hiByte v :=
  storeWord_high ..

@[simp] theorem pushed_low (s : State) (v : Word) : memByte (s.pushed v).mem ((s.reg .sp).toNat + 1) = loByte v :=
  storeWord_low ..

@[simp] theorem pushed_wordAt (s : State) (v : Word) : (s.pushed v).wordAt (s.reg .sp).toNat = v.toNat :=
  wordAt_storeWord ..

@[simp] theorem pushed_sp (s : State) (v : Word) : (s.pushed v).reg .sp = s.reg .sp - 2 := by
  simp [State.pushed]

/-- `SP` after a push, as a number. -/
theorem pushed_sp_toNat {s : State} (h : 2 ≤ (s.reg .sp).toNat) (v : Word) :
    ((s.pushed v).reg .sp).toNat = (s.reg .sp).toNat - 2 := by
  rw [pushed_sp]
  exact BitVec.toNat_sub_of_le h

/-- A push changes `SP` and the two bytes at the old `SP` alone. -/
theorem pushed_changesOnly (s : State) (v : Word) : ChangesOnly s (s.pushed v) [.sp] (some (s.reg .sp).toNat) :=
  changesOnly_store_trans (storeWord_changesOnly ..) (setReg_changesOnly ..)

/-- How a push on a legal slot ends. -/
theorem commit_push_legal {s : State} (hN : (s.reg .sp).toNat + 1 < s.cfg.memLen)
    (hL : s.cfg.stackLow + 2 ≤ (s.reg .sp).toNat) (v : Word) :
    ∃ t, commit (push v s) = .next t ∧ (t.reg .sp).toNat = (s.reg .sp).toNat - 2 ∧
      (memByte t.mem (s.reg .sp).toNat).toNat = v.toNat / 256 ∧
      (memByte t.mem ((s.reg .sp).toNat + 1)).toNat = v.toNat % 256 ∧
      ChangesOnly s t [.sp] (some (s.reg .sp).toNat) := by
  refine ⟨_, commit_eq_next.mpr (push_legal hN hL v), pushed_sp_toNat (by omega) v, ?_, ?_, pushed_changesOnly ..⟩
  · rw [pushed_high, hiByte_toNat]
  · rw [pushed_low, loByte_toNat]

/-- Settles O40: both are the push of a word read before it. -/
theorem pushesComplete : Obligations.PushesComplete := by
  rintro s _ rfl hN hL
  exact ⟨fun v => commit_push_legal hN hL v, fun reg => commit_push_legal hN hL (s.operand reg)⟩

/-- Settles O41: the slot's bounds are checked before the low-water mark. -/
theorem pushFaults : Obligations.PushFaults := by
  refine fun s v reg => ⟨fun hN => ?_, fun hN hL => ?_⟩
  · exact ⟨commit_eq_fault.mpr (push_slot_beyond hN v), commit_eq_fault.mpr (push_slot_beyond hN _)⟩
  · exact ⟨commit_eq_fault.mpr (push_overflows hN hL v), commit_eq_fault.mpr (push_overflows hN hL _)⟩

/-! ### The pop -/

/-- A pop of a word inside Memory. -/
theorem pop_legal {s : State} (h : (s.reg .sp).toNat + 4 ≤ s.cfg.memLen) :
    pop s = .ok (s.memWord ((s.reg .sp).toNat + 2), s.setReg .sp (s.reg .sp + 2)) :=
  pop_ok h

/-- A pop that would raise `SP` above the highest slot underflows. -/
theorem pop_underflows {s : State} (h : s.cfg.memLen < (s.reg .sp).toNat + 4) :
    pop s = .error (.stackUnderflow (s.reg .sp)) := by
  obtain ⟨hle, -⟩ | ⟨-, hp⟩ := pop_cases s
  · omega
  · exact hp

/-- `POP` raises `SP`, then writes the popped word to its register. -/
theorem exec_pop_ok {s : State} (h : (s.reg .sp).toNat + 4 ≤ s.cfg.memLen) (b : Byte) :
    exec (.pop b) s =
      .next ((s.setReg .sp (s.reg .sp + 2)).setReg (wrapReg b) (s.memWord ((s.reg .sp).toNat + 2))) := by
  rw [exec, execPop, pop_legal h]
  rfl

/-- `POP` ends in the fault of its pop. -/
theorem exec_pop_error {s : State} (h : s.cfg.memLen < (s.reg .sp).toNat + 4) (b : Byte) :
    exec (.pop b) s = .fault (.stackUnderflow (s.reg .sp)) := by
  rw [exec, execPop, pop_underflows h]
  rfl

/-- A `POP` that completes had a word to pop. -/
theorem exec_pop_eq_next {s t : State} {b : Byte} (h : exec (.pop b) s = .next t) :
    (s.reg .sp).toNat + 4 ≤ s.cfg.memLen ∧
      t = (s.setReg .sp (s.reg .sp + 2)).setReg (wrapReg b) (s.memWord ((s.reg .sp).toNat + 2)) := by
  obtain hle | hgt := le_or_gt ((s.reg .sp).toNat + 4) s.cfg.memLen
  · exact ⟨hle, (Host.Outcome.next.inj ((exec_pop_ok hle b).symm.trans h)).symm⟩
  · cases (exec_pop_error hgt b).symm.trans h

/-- One more than a word that has room for it, as a number. -/
theorem add_one_toNat {w : Word} (h : w.toNat + 1 < 65536) : (w + 1).toNat = w.toNat + 1 := by
  rw [BitVec.toNat_add]
  exact Nat.mod_eq_of_lt h

/-- Two more than a word that has room for it, as a number. -/
theorem add_two_toNat {w : Word} (h : w.toNat + 2 < 65536) : (w + 2).toNat = w.toNat + 2 := by
  rw [BitVec.toNat_add]
  exact Nat.mod_eq_of_lt h

/-- Settles O42: `SP` is raised within the range of Memory, then the register is written. -/
theorem popCompletes : Obligations.PopCompletes := by
  rintro s reg _ hmax rfl h
  refine ⟨_, exec_pop_ok h reg, ?_, fun hsp => ?_, setReg_setReg_changesOnly ..⟩
  · rw [operand_setReg_wrapReg, memWord_toNat]
  · rw [setReg_reg, if_neg hsp.symm, setReg_reg, if_pos rfl, add_two_toNat (by omega)]

/-- Settles O43: the bound is checked before the read. -/
theorem popUnderflows : Obligations.PopUnderflows := fun _ reg h => exec_pop_error h reg

/-! ### Stores seen by fetches -/

/-- A word whose two bytes lie in Memory is what fetches from its address yield. -/
theorem fetchesWord_of_bytes {t : State} {addr w : Word} (hN : addr.toNat + 1 < t.cfg.memLen)
    (hhi : memByte t.mem addr.toNat = hiByte w) (hlo : memByte t.mem (addr.toNat + 1) = loByte w) :
    t.FetchesWord addr w := by
  refine ⟨⟨t.setReg .ip (addr + 2), ?word⟩, ⟨_, _, fetch8_at (by omega), ?high⟩, fun hmax => ?low⟩
  case word => rw [fetch16_at hN, hhi, hlo, joinBytes_hi_lo]
  case high => rw [State.byteAt, hhi, hiByte_toNat]
  case low =>
    have hnext := add_one_toNat (w := addr) (by omega)
    exact ⟨_, _, fetch8_at (by omega), by rw [State.byteAt, hnext, hlo, loByte_toNat]⟩

/-- The word a push stored is what fetches from the old `SP` yield. -/
theorem fetchesWord_of_push {v : Word} {s t : State} (h : push v s = .ok t) : t.FetchesWord (s.reg .sp) v := by
  obtain ⟨hN, -, rfl⟩ := push_eq_ok h
  exact fetchesWord_of_bytes hN (pushed_high s v) (pushed_low s v)

/-- Settles O34: each of the three leaves the two bytes of its word at its address. -/
theorem storeIsSeenByNextFetch : Obligations.StoreIsSeenByNextFetch := by
  refine fun s t => ⟨fun reg addr h => ?_, fun v h => fetchesWord_of_push (commit_eq_next.mp h),
    fun reg h => fetchesWord_of_push (commit_eq_next.mp h)⟩
  obtain ⟨hN, rfl⟩ := store16_eq_ok (commit_eq_next.mp h)
  exact fetchesWord_of_bytes hN (storeWord_high ..) (storeWord_low ..)

end Sys2Proof.Machine
end

section
/-! PROOFS. What the execute phase leaves unchanged in Memory and in the parameters, the invariant that follows for
every step and every run, and how a run ends (00_scope.md R5, 10_state.md R38, 20_memory.md R40,
70_reset_and_hazards.md R170, R173). -/

namespace Sys2Proof.Machine

/-! ### The frame of the execute phase -/

/-- The execute phase keeps the parameters, and Memory but for one word stored inside it at the address the
instruction names, if it names one. -/
theorem exec_mem_cases {i : Instr} {s t : State} (h : exec i s = .next t) : t.cfg = s.cfg ∧
    ((i.storeAddr s = none ∧ t.mem = s.mem) ∨
      ∃ a w, i.storeAddr s = some a ∧ a + 1 < s.cfg.memLen ∧ t.mem = (s.storeWord a w).mem) := by
  cases i
  case movLitReg imm reg =>
    cases h
    exact ⟨rfl, .inl ⟨rfl, rfl⟩⟩
  case movRegReg regFrom regTo =>
    cases h
    exact ⟨rfl, .inl ⟨rfl, rfl⟩⟩
  case movRegMem reg addr =>
    obtain ⟨hN, rfl⟩ := store16_eq_ok (commit_eq_next.mp h)
    exact ⟨rfl, .inr ⟨_, _, rfl, hN, rfl⟩⟩
  case movMemReg addr reg =>
    obtain ⟨w, -, rfl⟩ := except_map_eq_ok.mp (commit_eq_next.mp h)
    exact ⟨rfl, .inl ⟨rfl, rfl⟩⟩
  case addRegReg regA regB =>
    obtain ⟨ra, -, h⟩ := except_bind_eq_ok.mp (commit_eq_next.mp h)
    obtain ⟨rb, -, h⟩ := except_bind_eq_ok.mp h
    cases h
    exact ⟨rfl, .inl ⟨rfl, rfl⟩⟩
  case jmpNotEq imm addr =>
    cases (exec_jmpNotEq imm addr s).symm.trans h
    exact ⟨rfl, .inl ⟨rfl, rfl⟩⟩
  case pshLit imm =>
    obtain ⟨hN, -, rfl⟩ := push_eq_ok (commit_eq_next.mp h)
    exact ⟨rfl, .inr ⟨_, _, rfl, hN, rfl⟩⟩
  case pshReg reg =>
    obtain ⟨hN, -, rfl⟩ := push_eq_ok (commit_eq_next.mp h)
    exact ⟨rfl, .inr ⟨_, _, rfl, hN, rfl⟩⟩
  case pop reg =>
    obtain ⟨-, rfl⟩ := exec_pop_eq_next h
    exact ⟨rfl, .inl ⟨rfl, rfl⟩⟩

/-- Settles O48: the registers by `exec_reg`, Memory by the one word that may be stored. -/
theorem execFrame : Obligations.ExecFrame := by
  intro i s t h
  obtain ⟨hcfg, ⟨-, hmem⟩ | ⟨a, w, ha, -, hmem⟩⟩ := exec_mem_cases h <;>
    refine ⟨hcfg, fun r hr => exec_reg h hr, fun c hc => ?_⟩
  · rw [hmem]
  · obtain ⟨-, -, hframe⟩ := storeWord_changesOnly s a w
    rw [hmem]
    exact hframe c fun b hb => hc b (ha.trans hb)

/-! ### The invariant -/

/-- The invariant speaks of the parameters and of Memory only. -/
theorem inv_congr {s t : State} (hcfg : t.cfg = s.cfg) (hmem : t.mem = s.mem) (h : s.Inv) : t.Inv := by
  rwa [State.Inv, hcfg, hmem]

/-- A word stored inside Memory keeps the invariant. -/
theorem storeWord_inv {s : State} {a : Nat} (ha : a + 1 < s.cfg.memLen) (w : Word) (h : s.Inv) :
    (s.storeWord a w).Inv := by
  obtain ⟨hcfg, hwf, hin⟩ := h
  exact ⟨hcfg, memSet_wf _ _ (memSet_wf _ _ hwf), memSet_within _ ha (memSet_within _ (Nat.lt_of_succ_lt ha) hin)⟩

/-- The execute phase keeps the invariant. -/
theorem exec_inv {i : Instr} {s t : State} (h : exec i s = .next t) (hs : s.Inv) : t.Inv := by
  obtain ⟨hcfg, ⟨-, hmem⟩ | ⟨a, w, -, ha, hmem⟩⟩ := exec_mem_cases h
  · exact inv_congr hcfg hmem hs
  · exact inv_congr (s := s.storeWord a w) hcfg hmem (storeWord_inv ha w hs)

/-- Settles O54: a step moves `IP`, which the invariant does not mention, and executes at most one instruction. -/
theorem stepKeepsInvariant : Obligations.StepKeepsInvariant := by
  intro s t hs h
  obtain ⟨rfl, -, -⟩ | ⟨i, s', -, ⟨v, rfl⟩, he⟩ := step_cases h
  · exact inv_congr rfl rfl hs
  · exact exec_inv he (inv_congr rfl rfl hs)

/-- A step keeps the parameters. -/
theorem step_cfg {s t : State} (h : step s = .next t) : t.cfg = s.cfg := by
  obtain ⟨rfl, -, -⟩ | ⟨i, s', -, ⟨v, rfl⟩, he⟩ := step_cases h
  · rfl
  · exact (exec_mem_cases he).1

/-! ### A step completes or faults -/

/-- No execute phase refuses: it completes outright, or ends as its working copy or its fault is committed. -/
theorem exec_ne_refused (i : Instr) (s : State) (r : Refusal) : exec i s ≠ .refused r := by
  cases i
  case movLitReg | movRegReg => exact nofun
  case jmpNotEq imm addr =>
    rw [exec_jmpNotEq]
    exact nofun
  all_goals exact commit_ne_refused _ r

/-- Settles O24: neither the fetch nor the execute phase refuses. -/
theorem stepCompletesOrFaults : Obligations.StepCompletesOrFaults := by
  intro s
  cases h : step s with
  | next t => exact .inl ⟨t, rfl⟩
  | fault f => exact .inr ⟨f, rfl⟩
  | refused r =>
    unfold step at h
    split at h
    · cases h
    · cases h
    · exact absurd h (exec_ne_refused _ _ r)

/-! ### The driver's step and a run -/

theorem driverStep_next {s t : State} (h : step s = .next t) : driverStep s = (t, .ok) := by
  rw [driverStep, h]

theorem driverStep_fault {s : State} {f : Fault} (h : step s = .fault f) : driverStep s = (s, .fault f) := by
  rw [driverStep, h]

/-- Settles O25: the driver keeps the state it called the step with. -/
theorem faultingStepChangesNothing : Obligations.FaultingStepChangesNothing := fun _ _ h =>
  ⟨driverStep_fault h, by rw [driverStep_fault h, driverStep_fault h]⟩

/-- A run whose first step completes goes on from the next state. -/
theorem run_succ_next {s t : State} (h : step s = .next t) (k : Nat) :
    run (k + 1) s = { run k t with okSteps := (run k t).okSteps + 1 } := by
  rw [run, driverStep_next h]

/-- A run whose first step faults ends there. -/
theorem run_succ_fault {s : State} {f : Fault} (h : step s = .fault f) (k : Nat) :
    run (k + 1) s = ⟨s, 0, .fault f⟩ := by
  rw [run, driverStep_fault h]

/-- Settles O55, by induction on the number of step calls, over every state the run may pass. -/
theorem runKeepsInvariant : Obligations.RunKeepsInvariant := by
  intro k
  induction k with
  | zero => exact fun s hs => ⟨hs, rfl⟩
  | succ k ih =>
    intro s hs
    obtain ⟨t, h⟩ | ⟨f, h⟩ := stepCompletesOrFaults s
    · obtain ⟨hinv, hcfg⟩ := ih t (stepKeepsInvariant s t hs h)
      rw [run_succ_next h]
      exact ⟨hinv, hcfg.trans (step_cfg h)⟩
    · rw [run_succ_fault h]
      exact ⟨hs, rfl⟩

/-- Settles O26, by induction on the number of step calls: a first step that completes shifts the run by one, a first
step that faults ends it. -/
theorem runEndsAtFirstFault : Obligations.RunEndsAtFirstFault := by
  intro k
  induction k with
  | zero => exact fun s => ⟨rfl, fun f h => by cases h⟩
  | succ k ih =>
    intro s
    obtain ⟨t, h⟩ | ⟨f, h⟩ := stepCompletesOrFaults s
    · obtain ⟨hsame, hends⟩ := ih t
      rw [run_succ_next h]
      refine ⟨by rw [run_succ_next h, hsame], fun f hf => ?_⟩
      obtain ⟨hlt, hstep, hmore⟩ := hends f hf
      refine ⟨Nat.succ_lt_succ hlt, hstep, fun j => ?_⟩
      rw [Nat.add_right_comm, run_succ_next h, hmore j]
    · rw [run_succ_fault h]
      refine ⟨rfl, fun f' hf => ⟨Nat.succ_pos k, ?_, fun j => ?_⟩⟩
      · cases hf
        exact h
      · rw [Nat.add_right_comm, run_succ_fault h]

/-! ### Construction -/

/-- A byte of the cells an image has over some addresses. -/
theorem memByte_cells_of_image (image : Nat → Byte) (l : List Nat) (a : Nat) :
    memByte (l.filterMap fun a => if image a = unlistedByte then none else some (a, image a)) a =
      if a ∈ l then image a else unlistedByte := by
  induction l with
  | nil => rfl
  | cons b l ih =>
    by_cases hab : b = a
    · subst hab
      by_cases hb : image b = unlistedByte
      · simp [hb, ih]
      · simp [hb, memByte]
    · by_cases hb : image b = unlistedByte
      · simp [hb, ih, Ne.symm hab]
      · simp [hb, ih, memByte, hab, Ne.symm hab]

/-- A Memory built from an image reads as the image. -/
theorem memByte_memOfImage {n a : Nat} (h : a < n) (image : Nat → Byte) : memByte (memOfImage n image) a = image a :=
  (memByte_cells_of_image image (List.range n) a).trans (if_pos (List.mem_range.mpr h))

/-- Construction over parameters in range. -/
theorem construct_ok {cfg : Config} (h : cfg.Wf) (memInit : Nat → Byte) :
    construct cfg memInit = .next (State.constructed cfg (memOfImage cfg.memLen memInit)) :=
  if_pos h

/-- Construction over parameters out of range. -/
theorem construct_refused {cfg : Config} (h : ¬ cfg.Wf) (memInit : Nat → Byte) :
    construct cfg memInit = .refused .parametersOutOfRange :=
  if_neg h

/-- The registers between `IP` and `SP` are zero after construction. -/
theorem constructed_general (c : Config) (m : Memory) {r : Reg} (h0 : regIndex r ≠ 0) (h10 : regIndex r < 10) :
    (State.constructed c m).reg r = 0 := by
  cases r
  case ip => exact absurd rfl h0
  case sp | fp => simp [regIndex] at h10
  all_goals rfl

/-- Settles O15: the reset registers over the Memory of the image. -/
theorem constructionSetsResetValues : Obligations.ConstructionSetsResetValues := by
  refine fun cfg memInit => ⟨fun h => ?_, fun h => construct_refused h memInit⟩
  obtain ⟨hfp, hsp⟩ := construct_fp (construct_ok h memInit)
  have hlo : 2 ≤ cfg.memLen := h.1
  exact ⟨_, construct_ok h memInit, rfl, rfl, by rw [← hsp]; omega, by omega, fun r => constructed_general cfg _,
    fun a ha => memByte_memOfImage ha memInit⟩

/-- An image of zeros lists no cell. -/
theorem memOfImage_zero (n : Nat) : memOfImage n (fun _ => 0) = [] :=
  List.filterMap_eq_nil_iff.mpr fun _ _ => if_pos rfl

/-- Settles O16: the zero image lists no cell, which is the Memory of reset. -/
theorem resetIsDefaultConstruction : Obligations.ResetIsDefaultConstruction := by
  rw [Obligations.ResetIsDefaultConstruction, construct_ok (by decide), memOfImage_zero]
  rfl

/-- Construction establishes the invariant. -/
theorem construct_inv {cfg : Config} {memInit : Nat → Byte} {s : State} (h : construct cfg memInit = .next s) :
    s.Inv := by
  by_cases hwf : cfg.Wf
  · cases (construct_ok hwf memInit).symm.trans h
    exact ⟨hwf, memOfImage_wf _ _, memOfImage_within _ _⟩
  · cases (construct_refused hwf memInit).symm.trans h

/-- Settles O17: reset is a construction. -/
theorem constructionMeetsInvariant : Obligations.ConstructionMeetsInvariant :=
  ⟨construct_inv resetIsDefaultConstruction, fun _ _ _ => construct_inv⟩

end Sys2Proof.Machine
end

section
/-! PROOFS. What a step does, from the bytes at `IP`: the fetch fault of the first field outside Memory, or the
instruction those bytes make, executed with `IP` past it (40_fetch_step.md R85 to R90). -/

namespace Sys2Proof.Machine

/-- The instruction of a mnemonic whose opcode byte lies at `a`, its fields read from Memory. -/
def State.instrAt (s : State) (a : Word) : Mnemonic → Instr
  | .movLitReg => .movLitReg (s.memWord (a + 1).toNat) (s.byteAt (a + 3))
  | .movRegReg => .movRegReg (s.byteAt (a + 1)) (s.byteAt (a + 2))
  | .movRegMem => .movRegMem (s.byteAt (a + 1)) (s.memWord (a + 2).toNat)
  | .movMemReg => .movMemReg (s.memWord (a + 1).toNat) (s.byteAt (a + 3))
  | .addRegReg => .addRegReg (s.byteAt (a + 1)) (s.byteAt (a + 2))
  | .jmpNotEq => .jmpNotEq (s.memWord (a + 1).toNat) (s.memWord (a + 3).toNat)
  | .pshLit => .pshLit (s.memWord (a + 1).toNat)
  | .pshReg => .pshReg (s.byteAt (a + 1))
  | .pop => .pop (s.byteAt (a + 1))

/-! ### The fields of an instruction, laid out in Memory -/

section
variable {n : Nat} {ks : List FieldKind} {a : Word} {p : Word × Width}

theorem firstMisfit_reg_none :
    firstMisfit n (.reg :: ks) a = none ↔ a.toNat < n ∧ firstMisfit n ks (a + 1) = none :=
  firstMisfit_eq_none

theorem firstMisfit_literal_none :
    firstMisfit n (.literal :: ks) a = none ↔ a.toNat + 1 < n ∧ firstMisfit n ks (a + 2) = none :=
  firstMisfit_eq_none

theorem firstMisfit_address_none :
    firstMisfit n (.address :: ks) a = none ↔ a.toNat + 1 < n ∧ firstMisfit n ks (a + 2) = none :=
  firstMisfit_eq_none

theorem firstMisfit_reg_some : firstMisfit n (.reg :: ks) a = some p ↔
    (n ≤ a.toNat ∧ p = (a, .byte)) ∨ (a.toNat < n ∧ firstMisfit n ks (a + 1) = some p) :=
  firstMisfit_eq_some.trans (or_congr_left (and_congr_left' Nat.lt_succ_iff))

theorem firstMisfit_literal_some : firstMisfit n (.literal :: ks) a = some p ↔
    (n ≤ a.toNat + 1 ∧ p = (a, .word)) ∨ (a.toNat + 1 < n ∧ firstMisfit n ks (a + 2) = some p) :=
  firstMisfit_eq_some.trans (or_congr_left (and_congr_left' Nat.lt_succ_iff))

theorem firstMisfit_address_some : firstMisfit n (.address :: ks) a = some p ↔
    (n ≤ a.toNat + 1 ∧ p = (a, .word)) ∨ (a.toNat + 1 < n ∧ firstMisfit n ks (a + 2) = some p) :=
  firstMisfit_eq_some.trans (or_congr_left (and_congr_left' Nat.lt_succ_iff))

theorem firstMisfit_nil : firstMisfit n [] a = none := rfl

end

/-- When every field lies inside Memory the decode phase yields the instruction they make, with `IP` past it. -/
theorem decodeOperands_fits {s : State} {a : Word} {m : Mnemonic}
    (h : firstMisfit s.cfg.memLen (operandFields m) (a + 1) = none) :
    decodeOperands fetch8 fetch16 m (s.setReg .ip (a + 1)) =
      .ok (s.instrAt a m, s.setReg .ip (a + BitVec.ofNat 16 (instrLength m))) := by
  obtain ⟨h2, h3, h3', h4, h4', h5⟩ := advance_add a
  cases m <;>
    simp only [operandFields, firstMisfit_reg_none, firstMisfit_literal_none, firstMisfit_address_none,
      firstMisfit_nil, and_true, h2, h3] at h <;>
    simp only [decodeOperands, fetch8_at, fetch16_at, except_bind_ok, h, h2, h3, h3', h4, h4', h5] <;>
    rfl

/-- A field outside Memory, all before it inside, is the decode phase's fault. -/
theorem decodeOperands_misfit {s : State} {a b : Word} {w : Width} {m : Mnemonic}
    (h : firstMisfit s.cfg.memLen (operandFields m) (a + 1) = some (b, w)) :
    decodeOperands fetch8 fetch16 m (s.setReg .ip (a + 1)) = .error (.memoryFault b.toNat w .fetch) := by
  obtain ⟨h2, h3, -⟩ := advance_add a
  cases m <;>
    simp only [operandFields, firstMisfit_reg_some, firstMisfit_literal_some, firstMisfit_address_some,
      firstMisfit_nil, reduceCtorEq, and_false, or_false, Prod.mk.injEq, h2, h3] at h
  case pshLit | pshReg | pop =>
    obtain ⟨hout, rfl, rfl⟩ := h
    simp only [decodeOperands, fetch8_beyond, fetch16_beyond, hout, except_bind_error]
  all_goals
    obtain ⟨hout, rfl, rfl⟩ | ⟨hin, hout, rfl, rfl⟩ := h
    · simp only [decodeOperands, fetch8_beyond, fetch16_beyond, hout, except_bind_error]
    · simp only [decodeOperands, fetch8_at, fetch16_at, hin, except_bind_ok, h2, h3, fetch8_beyond, fetch16_beyond,
        hout, except_bind_error]

/-! ### What the fetch of a step yields -/

/-- With `IP` outside Memory the opcode's fetch faults. -/
theorem fetchInstr_beyond {s : State} (h : s.cfg.memLen ≤ (s.reg .ip).toNat) :
    fetchInstr s = .error (.memoryFault (s.reg .ip).toNat .byte .fetch) := by
  rw [fetchInstr, fetch8_eq, if_neg (not_lt.mpr h), except_bind_error]

section
variable {s : State} {a : Word} {m : Mnemonic} (hip : s.reg .ip = a) (hin : a.toNat < s.cfg.memLen)
  (hsel : selectOpcode s.cfg.opc (s.byteAt a) = some m)
include hip hin hsel

/-- At a known opcode whose fields lie inside Memory the fetch yields the instruction they make. -/
theorem fetchInstr_fits (hfit : firstMisfit s.cfg.memLen (operandFields m) (a + 1) = none) :
    fetchInstr s =
      .ok (.instruction (s.instrAt a m) (s.setReg .ip (a + BitVec.ofNat 16 (instrLength m)))) := by
  subst hip
  rw [fetchInstr_known hin hsel, decodeOperands_fits hfit]
  rfl

/-- At a known opcode the first field outside Memory is the fault of the fetch. -/
theorem fetchInstr_misfit {b : Word} {w : Width}
    (hmis : firstMisfit s.cfg.memLen (operandFields m) (a + 1) = some (b, w)) :
    fetchInstr s = .error (.memoryFault b.toNat w .fetch) := by
  subst hip
  rw [fetchInstr_known hin hsel, decodeOperands_misfit hmis]
  rfl

/-- At a known opcode whose fields lie inside Memory the step executes the instruction they make. -/
theorem step_fits (hfit : firstMisfit s.cfg.memLen (operandFields m) (a + 1) = none) :
    step s = exec (s.instrAt a m) (s.setReg .ip (a + BitVec.ofNat 16 (instrLength m))) :=
  step_of_fetch (fetchInstr_fits hip hin hsel hfit)

/-- At a known opcode the first field outside Memory is the fault of the step. -/
theorem step_misfit {b : Word} {w : Width}
    (hmis : firstMisfit s.cfg.memLen (operandFields m) (a + 1) = some (b, w)) :
    step s = .fault (.memoryFault b.toNat w .fetch) :=
  step_of_fetch_error (fetchInstr_misfit hip hin hsel hmis)

end

/-- A fetch that yields an instruction met a known opcode, and it is the one the fields after it make. -/
theorem fetchInstr_eq_instruction {s s' : State} {i : Instr} (h : fetchInstr s = .ok (.instruction i s')) :
    ∃ m, selectOpcode s.cfg.opc (s.byteAt (s.reg .ip)) = some m ∧ i = s.instrAt (s.reg .ip) m ∧
      s' = s.setReg .ip (s.reg .ip + BitVec.ofNat 16 (instrLength m)) := by
  obtain ⟨hin, ⟨_, hskip, -⟩ | ⟨j, _, -, -, hsel, -⟩⟩ := fetchInstr_cases h
  · cases hskip
  · cases hfit : firstMisfit s.cfg.memLen (operandFields j.mnemonic) (s.reg .ip + 1) with
    | none =>
      cases (fetchInstr_fits rfl hin hsel hfit).symm.trans h
      exact ⟨_, hsel, rfl, rfl⟩
    | some p => cases (fetchInstr_misfit (b := p.1) (w := p.2) rfl hin hsel hfit).symm.trans h

/-- Settles O20: the byte fetch, and the register its byte selects. -/
theorem fetchByteReadsThenAdvances : Obligations.FetchByteReadsThenAdvances := by
  refine fun s => ⟨fun h => ?_, fun h => ?_⟩
  · have hf := (fetch8_eq s).trans (if_pos h)
    refine ⟨_, _, hf, by rw [fetchRegisterIndex, hf]; rfl, regIndex_wrapReg _, ?_, setReg_changesOnly ..⟩
    rw [setReg_reg, if_pos rfl]
    exact BitVec.toNat_add _ 1
  · have hf := (fetch8_eq s).trans (if_neg (not_lt.mpr h))
    exact ⟨hf, by rw [fetchRegisterIndex, hf]; rfl⟩

/-- Settles O22: the opcode's fetch comes before every field's. -/
theorem stepFaultsAtFirstUnfetchableField : Obligations.StepFaultsAtFirstUnfetchableField := fun _ =>
  ⟨step_ip_beyond rfl, fun hin _ _ _ hsel hmis => step_misfit rfl hin hsel hmis⟩

/-- Settles O23: what the fetch of an unknown opcode yields in each mode. -/
theorem unknownOpcodeByMode : Obligations.UnknownOpcodeByMode := by
  intro s hin hsel
  have hf := fetchInstr_unknown hin hsel
  rw [unknownOpcode, setReg_cfg] at hf
  refine ⟨fun hmode => ?_, fun hmode => ?_⟩ <;> simp only [hmode] at hf
  · exact step_of_fetch_error hf
  · refine ⟨_, by rw [step, hf], ?_, setReg_changesOnly ..⟩
    rw [setReg_reg, if_pos rfl]
    exact BitVec.toNat_add _ 1

/-! ### The step and the decoder -/

/-- Two bytes in reach of `IP`'s advance are the word at the first one's address. -/
theorem joinBytes_byteAt {s : State} {a : Word} (hmax : s.cfg.memLen ≤ 65536) (h : a.toNat + 1 < s.cfg.memLen) :
    joinBytes (s.byteAt a) (s.byteAt (a + 1)) = s.memWord a.toNat := by
  rw [State.byteAt, State.byteAt, add_one_toNat (by omega)]
  rfl

/-- The bytes after an opcode, when its fields lie inside Memory, decode to the instruction the fields make. -/
theorem decodeOperands_window {s : State} {a : Word} {m : Mnemonic} (hmax : s.cfg.memLen ≤ 65536)
    (hfit : firstMisfit s.cfg.memLen (operandFields m) (a + 1) = none) :
    decodeOperands takeByte takeWord m [s.byteAt (a + 1), s.byteAt (a + 2), s.byteAt (a + 3), s.byteAt (a + 4)] =
      .ok (s.instrAt a m, [s.byteAt (a + 1), s.byteAt (a + 2), s.byteAt (a + 3), s.byteAt (a + 4)].drop
        (instrLength m - 1)) := by
  obtain ⟨h2, h3, h3', -, h4', -⟩ := advance_add a
  have hjoin1 := joinBytes_byteAt (a := a + 1) hmax
  have hjoin2 := joinBytes_byteAt (a := a + 2) hmax
  have hjoin3 := joinBytes_byteAt (a := a + 3) hmax
  rw [h2] at hjoin1
  rw [h3'] at hjoin2
  rw [h4'] at hjoin3
  cases m <;>
    simp only [operandFields, firstMisfit_reg_none, firstMisfit_literal_none, firstMisfit_address_none,
      firstMisfit_nil, and_true, h2, h3] at hfit <;>
    simp only [decodeOperands, takeByte, takeWord, except_bind_ok, hjoin1, hjoin2, hjoin3, hfit] <;>
    rfl

theorem codeWindow_five (s : State) : s.codeWindow 5 = [s.byteAt (s.reg .ip), s.byteAt (s.reg .ip + 1),
    s.byteAt (s.reg .ip + 2), s.byteAt (s.reg .ip + 3), s.byteAt (s.reg .ip + 4)] := by
  simp [State.codeWindow, List.range_succ]

/-- Settles O21: the list decoder and the fetch read the same fields. -/
theorem stepRunsDecodedInstruction : Obligations.StepRunsDecodedInstruction := by
  intro s i rest hmax hdec hin hfit
  rw [codeWindow_five] at hdec
  cases hsel : selectOpcode s.cfg.opc (s.byteAt (s.reg .ip)) with
  | none =>
    rw [decode_unknown hsel] at hdec
    cases hdec
  | some m =>
    rw [decode_cons hsel] at hdec
    obtain ⟨rfl, -⟩ := (decodeOperands_eq_ok s.cfg.opc).mp hdec
    obtain ⟨hi, -⟩ := Prod.mk.inj (Except.ok.inj ((decodeOperands_window hmax hfit).symm.trans hdec))
    rw [step_fits rfl hin hsel hfit, hi]

/-! ### The faults of a step -/

/-- A fetch fails by a Memory fault of kind fetch, or at an unknown opcode in `fault` mode. -/
theorem fetchInstr_eq_error {s : State} {f : Fault} (h : fetchInstr s = .error f) :
    (∃ a w, f = .memoryFault a w .fetch) ∨
    (s.cfg.unknownOpcodeMode = .fault ∧ selectOpcode s.cfg.opc (s.byteAt (s.reg .ip)) = none ∧
      f = .invalidOpcode (s.byteAt (s.reg .ip)) (s.reg .ip)) := by
  obtain hin | hout := lt_or_ge (s.reg .ip).toNat s.cfg.memLen
  · cases hsel : selectOpcode s.cfg.opc (s.byteAt (s.reg .ip)) with
    | none =>
      rw [fetchInstr_unknown hin hsel, unknownOpcode, setReg_cfg] at h
      cases hmode : s.cfg.unknownOpcodeMode with
      | fault =>
        rw [hmode] at h
        exact .inr ⟨rfl, rfl, (Except.error.inj h).symm⟩
      | nop =>
        rw [hmode] at h
        cases h
    | some m =>
      cases hfit : firstMisfit s.cfg.memLen (operandFields m) (s.reg .ip + 1) with
      | none => cases (fetchInstr_fits rfl hin hsel hfit).symm.trans h
      | some p =>
        cases (fetchInstr_misfit (b := p.1) (w := p.2) rfl hin hsel hfit).symm.trans h
        exact .inl ⟨_, _, rfl⟩
  · cases (fetchInstr_beyond hout).symm.trans h
    exact .inl ⟨_, _, rfl⟩

/-- A push raises one of two faults. -/
theorem push_eq_error {v : Word} {s : State} {f : Fault} (h : push v s = .error f) :
    ∃ sp : Word, f = .memoryFault sp.toNat .word .write ∨ f = .stackOverflow sp := by
  obtain ⟨-, -, hp⟩ | ⟨-, hp⟩ | ⟨-, -, hp⟩ := push_cases v s <;> cases hp.symm.trans h
  · exact ⟨_, .inl rfl⟩
  · exact ⟨_, .inr rfl⟩

/-- The execute phase raises only what the fault matrix allows its instruction. -/
theorem exec_mayRaise {i : Instr} {s : State} {f : Fault} (h : exec i s = .fault f) : i.mayRaise f := by
  cases i
  case movLitReg | movRegReg => cases h
  case movRegMem reg addr =>
    obtain hin | hout := lt_or_ge (addr.toNat + 1) s.cfg.memLen
    · cases (exec_movRegMem_ok hin reg).symm.trans h
    · cases (exec_movRegMem_error hout reg).symm.trans h
      rfl
  case movMemReg addr reg =>
    obtain hin | hout := lt_or_ge (addr.toNat + 1) s.cfg.memLen
    · cases (exec_movMemReg_ok (load16_ok hin) reg).symm.trans h
    · cases (exec_movMemReg_error (load16_error hout) reg).symm.trans h
      rfl
  case addRegReg regA regB =>
    obtain hA | hA := lt_or_ge regA.toNat 12
    · obtain hB | hB := lt_or_ge regB.toNat 12
      · cases (exec_addRegReg_ok hA hB s).symm.trans h
      · cases (exec_addRegReg_second_illegal hA hB s).symm.trans h
        exact .inr ⟨hA, hB, rfl⟩
    · cases (exec_addRegReg_first_illegal hA regB s).symm.trans h
      exact .inl ⟨hA, rfl⟩
  case jmpNotEq imm addr => cases (exec_jmpNotEq imm addr s).symm.trans h
  case pshLit imm => exact push_eq_error (commit_eq_fault.mp h)
  case pshReg reg => exact push_eq_error (commit_eq_fault.mp h)
  case pop reg =>
    obtain hle | hgt := le_or_gt ((s.reg .sp).toNat + 4) s.cfg.memLen
    · cases (exec_pop_ok hle reg).symm.trans h
    · cases (exec_pop_error hgt reg).symm.trans h
      exact ⟨_, rfl⟩

/-- Settles O50: the faults of the fetch, then those of the execute phase. -/
theorem stepFaultMatrix : Obligations.StepFaultMatrix := by
  intro s f h
  cases hf : fetchInstr s with
  | error e =>
    cases (step_of_fetch_error hf).symm.trans h
    exact (fetchInstr_eq_error hf).imp_right .inl
  | ok r =>
    cases r with
    | skipped t =>
      rw [step, hf] at h
      cases h
    | instruction i s' =>
      have he := (step_of_fetch hf).symm.trans h
      exact .inr (.inr ⟨i, s', rfl, he, exec_mayRaise he⟩)

/-! ### The frame of a step -/

/-- The address an instruction stores at does not depend on `IP`. -/
theorem storeAddr_setReg_ip (s : State) (v : Word) (i : Instr) : i.storeAddr (s.setReg .ip v) = i.storeAddr s := by
  cases i <;> rfl

/-- Settles O49: the frame of the fetch, then that of the execute phase. -/
theorem stepFrame : Obligations.StepFrame := by
  intro s t h
  obtain ⟨rfl, -, -⟩ | ⟨i, s', hf, ⟨v, rfl⟩, he⟩ := step_cases h
  · exact .inl (setReg_changesOnly ..)
  · refine .inr ⟨i, _, hf, ?_⟩
    rw [← storeAddr_setReg_ip s v i]
    exact changesOnly_trans (setReg_changesOnly s .ip v) (execFrame i _ t he)

end Sys2Proof.Machine
end

section
/-! PROOFS. Whole steps: the register move, the store, the addition and the stack instructions, each at its fields'
places, and every way a step changes `IP` (41_mov.md R101, R102, 42_add.md R110, 43_jmp.md R121, 44_stack.md R132 to
R134). -/

namespace Sys2Proof.Machine

/-! ### Steps over a known opcode -/

section
variable {s : State} {a : Word} {m : Mnemonic} (h : OpcodeAt s a m)
include h

theorem selectOpcode_opcodeAt : selectOpcode s.cfg.opc (s.byteAt a) = some m := by
  obtain ⟨-, -, hinj, hbyte⟩ := h
  rw [hbyte, selectOpcode_opcodeByte hinj]

theorem step_opcodeAt_fits (hfit : firstMisfit s.cfg.memLen (operandFields m) (a + 1) = none) :
    step s = exec (s.instrAt a m) (s.setReg .ip (a + BitVec.ofNat 16 (instrLength m))) :=
  step_fits h.ip h.inside (selectOpcode_opcodeAt h) hfit

theorem step_opcodeAt_misfit {b : Word} {w : Width}
    (hmis : firstMisfit s.cfg.memLen (operandFields m) (a + 1) = some (b, w)) :
    step s = .fault (.memoryFault b.toNat w .fetch) :=
  step_misfit h.ip h.inside (selectOpcode_opcodeAt h) hmis

end

/-- Two register bytes after an opcode lie inside Memory. -/
theorem regReg_fits {n : Nat} {a : Word} (h1 : (a + 1).toNat < n) (h2 : (a + 2).toNat < n) :
    firstMisfit n [.reg, .reg] (a + 1) = none := by
  obtain ⟨hadv, -⟩ := advance_add a
  rw [firstMisfit_reg_none, hadv, firstMisfit_reg_none]
  exact ⟨h1, h2, rfl⟩

/-- A register operand read after `IP` has moved to the next instruction (40_fetch_step.md R93). -/
theorem operand_advanced {b : Byte} {r : Reg} (h : regIndex r = b.toNat % 12) (s : State) (next : Word) :
    (s.setReg .ip next).operand b = if r = .ip then next else s.reg r := by
  rw [State.operand, wrapReg_eq h, setReg_reg]

/-! ### The moves from a register -/

/-- Settles O28: the fetch faults of its two bytes, then one register write after `IP` has moved past them. -/
theorem movRegRegStep : Obligations.MovRegRegStep := by
  intro s a hip ha hinj hop
  have hat : OpcodeAt s a .movRegReg := ⟨hip, ha, hinj, hop⟩
  obtain ⟨hadv, -⟩ := advance_add a
  refine ⟨fun h1 => ?_, fun h1 h2 => ?_, fun h1 h2 src d hsrc hd => ?_⟩
  · exact step_opcodeAt_misfit hat (firstMisfit_reg_some.mpr (.inl ⟨h1, rfl⟩))
  · refine step_opcodeAt_misfit hat (firstMisfit_reg_some.mpr (.inr ⟨h1, ?_⟩))
    rw [hadv]
    exact firstMisfit_reg_some.mpr (.inl ⟨h2, rfl⟩)
  · have hstep := step_opcodeAt_fits hat (regReg_fits h1 h2)
    rw [State.instrAt, exec_movRegReg, wrapReg_eq hd] at hstep
    refine ⟨_, hstep, ?_, fun hne => ?_, setReg_setReg_changesOnly ..⟩
    · rw [setReg_reg, if_pos rfl, operand_advanced hsrc]
      rfl
    · rw [setReg_reg, if_neg hne.symm, setReg_reg, if_pos rfl]
      rfl

/-- Settles O29: the fetch faults of its two fields, then the store with `IP` past them, whose bounds decide fault or
completion. -/
theorem movRegMemStep : Obligations.MovRegMemStep := by
  intro s a hip ha hinj hop
  have hat : OpcodeAt s a .movRegMem := ⟨hip, ha, hinj, hop⟩
  obtain ⟨hadv, -⟩ := advance_add a
  refine ⟨fun h1 => ?_, fun h1 h2 => ?_, fun h1 h2 src addr hsrc haddr => ?_⟩
  · exact step_opcodeAt_misfit hat (firstMisfit_reg_some.mpr (.inl ⟨h1, rfl⟩))
  · refine step_opcodeAt_misfit hat (firstMisfit_reg_some.mpr (.inr ⟨h1, ?_⟩))
    rw [hadv]
    exact firstMisfit_address_some.mpr (.inl ⟨h2, rfl⟩)
  · have hfit : firstMisfit s.cfg.memLen (operandFields .movRegMem) (a + 1) = none := by
      rw [operandFields, firstMisfit_reg_none, hadv, firstMisfit_address_none]
      exact ⟨h1, h2, rfl⟩
    have hstep : step s = exec (.movRegMem (s.byteAt (a + 1)) (s.memWord (a + 2).toNat)) (s.setReg .ip (a + 4)) :=
      step_opcodeAt_fits hat hfit
    obtain rfl := haddr.trans (memWord_toNat s _).symm
    rw [hstep]
    refine ⟨fun hout => exec_movRegMem_error (s := s.setReg .ip (a + 4)) hout _, fun hin =>
      ⟨_, exec_movRegMem_ok (s := s.setReg .ip (a + 4)) hin _, ?_, rfl,
        changesOnly_trans (setReg_changesOnly ..) (storeWord_changesOnly ..)⟩⟩
    rw [wordAt_storeWord, operand_advanced hsrc]

/-! ### Addition -/

/-- Settles O37: the execute phase's three outcomes, with `IP` past the two bytes. -/
theorem addRegRegStep : Obligations.AddRegRegStep := by
  rintro s a _ _ hip hinj ha h1 h2 hop rfl rfl
  have hat : OpcodeAt s a .addRegReg := ⟨hip, ha, hinj, hop⟩
  have hstep := step_opcodeAt_fits hat (regReg_fits h1 h2)
  rw [State.instrAt] at hstep
  refine ⟨fun hA => hstep.trans (exec_addRegReg_first_illegal hA _ _),
    fun hA hB => hstep.trans (exec_addRegReg_second_illegal hA hB _), fun ra rb hra hrb => ?_⟩
  obtain ⟨hA, hra⟩ := wrapReg_of_rawIndex hra
  obtain ⟨hB, hrb⟩ := wrapReg_of_rawIndex hrb
  refine ⟨_, hstep.trans (exec_addRegReg_ok hA hB _), rfl, ?_, setReg_setReg_changesOnly ..⟩
  rw [setReg_reg, if_pos rfl, State.operand, State.operand, hra, hrb, setReg_reg, setReg_reg]
  exact BitVec.toNat_add _ _

/-! ### The stack -/

/-- A push on a legal slot after `IP` has moved to the next instruction. -/
theorem commit_push_advanced {s : State} (hN : (s.reg .sp).toNat + 1 < s.cfg.memLen)
    (hL : s.cfg.stackLow + 2 ≤ (s.reg .sp).toNat) (next v : Word) :
    ∃ t, commit (push v (s.setReg .ip next)) = .next t ∧ t.reg .ip = next ∧
      (t.reg .sp).toNat = (s.reg .sp).toNat - 2 ∧ t.wordAt (s.reg .sp).toNat = v.toNat ∧
      ChangesOnly s t [.ip, .sp] (some (s.reg .sp).toNat) :=
  ⟨_, commit_eq_next.mpr (push_legal (s := s.setReg .ip next) hN hL v), rfl,
    pushed_sp_toNat (s := s.setReg .ip next) (le_of_add_le_right hL) v, pushed_wordAt (s.setReg .ip next) v,
    changesOnly_trans (setReg_changesOnly s .ip next) (pushed_changesOnly _ v)⟩

/-- Settles O44: the push or the pop with `IP` past the instruction's one field. -/
theorem stackInstructionSteps : Obligations.StackInstructionSteps := by
  rintro s a _ hip ⟨-, hmax, -, hinj⟩ ha rfl
  refine ⟨fun hop h1 hN hL => ?pshLit, fun hop h1 hN hL src hsrc => ?pshReg, fun hop h1 htop d hd => ?pop⟩
  case pshLit =>
    have hstep := step_opcodeAt_fits (m := .pshLit) ⟨hip, ha, hinj, hop⟩
      (firstMisfit_literal_none.mpr ⟨h1, rfl⟩)
    rw [hstep, ← memWord_toNat]
    exact commit_push_advanced hN hL (a + 3) _
  case pshReg =>
    have hstep := step_opcodeAt_fits (m := .pshReg) ⟨hip, ha, hinj, hop⟩ (firstMisfit_reg_none.mpr ⟨h1, rfl⟩)
    rw [hstep, ← operand_advanced hsrc s (a + 2)]
    exact commit_push_advanced hN hL (a + 2) _
  case pop =>
    have hstep := step_opcodeAt_fits (m := .pop) ⟨hip, ha, hinj, hop⟩ (firstMisfit_reg_none.mpr ⟨h1, rfl⟩)
    refine ⟨_, hstep.trans (exec_pop_ok (s := s.setReg .ip (a + 2)) htop _), ?_⟩
    rw [wrapReg_eq hd]
    refine ⟨?_, fun hne => ?_, fun hne => ?_,
      changesOnly_trans (setReg_changesOnly s .ip _) (setReg_setReg_changesOnly ..)⟩
    · rw [setReg_reg, if_pos rfl]
      exact memWord_toNat s _
    · rw [setReg_reg, if_neg hne.symm]
      rfl
    · rw [setReg_reg, if_neg hne.symm]
      exact add_two_toNat (w := s.reg .sp) (by omega)

/-! ### Every way a step changes `IP` -/

theorem mod_twelve_of_wrapReg_ip {b : Byte} (h : .ip = wrapReg b) : b.toNat % 12 = 0 := by
  rw [← regIndex_wrapReg, ← h]
  rfl

/-- A `MOV_MEM_REG` that completes loaded the word at its address. -/
theorem exec_movMemReg_eq_next {s t : State} {addr : Word} {b : Byte} (h : exec (.movMemReg addr b) s = .next t) :
    t = s.setReg (wrapReg b) (s.memWord addr.toNat) := by
  obtain hin | hout := lt_or_ge (addr.toNat + 1) s.cfg.memLen
  · exact (Host.Outcome.next.inj ((exec_movMemReg_ok (load16_ok hin) b).symm.trans h)).symm
  · cases (exec_movMemReg_error (load16_error hout) b).symm.trans h

/-- Settles O51: an instruction that does not write `IP` leaves it past itself; the five that may are taken one by
one. -/
theorem ipAfterStep : Obligations.IpAfterStep := by
  rintro s t _ rfl h
  obtain ⟨rfl, hmode, hsel⟩ | ⟨i, s', hf, -, he⟩ := step_cases h
  · exact .inl ⟨hsel, hmode, by rw [setReg_reg, if_pos rfl]⟩
  obtain ⟨m, hsel, rfl, rfl⟩ := fetchInstr_eq_instruction hf
  refine .inr ⟨m, hsel, ?_⟩
  by_cases hip : .ip ∈ (s.instrAt (s.reg .ip) m).dests
  case neg =>
    left
    rw [exec_reg he hip, setReg_reg, if_pos rfl]
  cases m <;> simp only [State.instrAt, Instr.dests, List.mem_cons, List.not_mem_nil, or_false, reduceCtorEq,
    false_or] at hip
  case movLitReg =>
    rw [State.instrAt, exec_movLitReg] at he
    cases he
    refine .inr (.inr (.inl ⟨rfl, mod_twelve_of_wrapReg_ip hip, ?_⟩))
    rw [← hip, setReg_reg, if_pos rfl, memWord_toNat]
  case movRegReg =>
    rw [State.instrAt, exec_movRegReg] at he
    cases he
    rw [← hip, setReg_reg, if_pos rfl, State.operand, setReg_reg]
    split_ifs with hsrc
    · exact .inl rfl
    · exact .inr (.inr (.inr (.inl ⟨rfl, mod_twelve_of_wrapReg_ip hip, rfl⟩)))
  case movMemReg =>
    obtain rfl := exec_movMemReg_eq_next he
    refine .inr (.inr (.inr (.inr (.inl ⟨rfl, mod_twelve_of_wrapReg_ip hip, ?_⟩))))
    rw [← hip, setReg_reg, if_pos rfl, memWord_setReg, memWord_toNat, memWord_toNat]
  case jmpNotEq =>
    rw [State.instrAt, exec_jmpNotEq_advanced] at he
    cases he
    rw [setReg_reg, if_pos rfl]
    split_ifs with heq
    · exact .inl rfl
    · refine .inr (.inl ⟨rfl, ?_, memWord_toNat ..⟩)
      rw [← memWord_toNat]
      exact mt BitVec.eq_of_toNat_eq heq
  case pop =>
    obtain ⟨-, rfl⟩ := exec_pop_eq_next he
    refine .inr (.inr (.inr (.inr (.inr ⟨rfl, mod_twelve_of_wrapReg_ip hip, ?_⟩))))
    rw [← hip, setReg_reg, if_pos rfl]
    exact memWord_toNat s _

end Sys2Proof.Machine
end

section
/-! PROOFS. The stack as a whole: last in, first out, the place of every pushed word, and the bounds `SP` keeps
(44_stack.md R135 to R137). -/

namespace Sys2Proof.Machine

/-! ### Last in, first out -/

/-- A pop from a state whose `SP` and slot are as a push left them yields the pushed word and restores `SP`. -/
theorem pop_of_push {v : Word} {s s1 s2 : State} (h : push v s = .ok s1) (hcfg : s2.cfg = s.cfg)
    (hsp : s2.reg .sp = s1.reg .sp) (hslot : s2.wordAt (s.reg .sp).toNat = s1.wordAt (s.reg .sp).toNat) :
    ∃ s3, pop s2 = .ok (v, s3) ∧ s3.reg .sp = s.reg .sp ∧ ChangesOnly s2 s3 [.sp] none := by
  obtain ⟨hN, hL, rfl⟩ := push_eq_ok h
  have hnum := pushed_sp_toNat (s := s) (by omega) v
  rw [← hsp] at hnum
  have hword : s2.memWord ((s2.reg .sp).toNat + 2) = v := by
    apply BitVec.eq_of_toNat_eq
    rw [memWord_toNat, hnum, Nat.sub_add_cancel (by omega), hslot, pushed_wordAt]
  have hpop := pop_legal (s := s2) (by rw [hcfg]; omega)
  rw [hword, hsp, pushed_sp, BitVec.sub_add_cancel] at hpop
  exact ⟨_, hpop, by rw [setReg_reg, if_pos rfl], setReg_changesOnly ..⟩

/-- Settles O45: the second push leaves the slot of the first alone, and so does the first pop. -/
theorem pushThenPopIsLifo : Obligations.PushThenPopIsLifo := by
  refine ⟨fun _ _ _ _ => pop_of_push, fun v1 v2 s s1 s2 h1 h2 => ?_⟩
  obtain ⟨-, -, hs2⟩ := push_eq_ok h2
  have hframe : ChangesOnly s1 s2 [.sp] (some (s1.reg .sp).toNat) := hs2 ▸ pushed_changesOnly s1 v2
  obtain ⟨s3, hpop2, hsp3, hkept⟩ := pop_of_push h2 hframe.1 rfl rfl
  obtain ⟨-, hL, rfl⟩ := push_eq_ok h1
  have hnum := pushed_sp_toNat (s := s) (by omega) v1
  have hslot : s3.wordAt (s.reg .sp).toNat = (s.pushed v1).wordAt (s.reg .sp).toNat :=
    (changesOnly_wordAt hkept (by simp)).trans (changesOnly_wordAt hframe fun b hb => by cases hb; omega)
  obtain ⟨s4, hpop1, hsp4, -⟩ := pop_of_push h1 (hkept.1.trans hframe.1) hsp3 hslot
  exact ⟨s3, s4, hpop2, hpop1, hsp4⟩

/-! ### The layout after pushes -/

theorem pushAll_cons_eq_ok {v : Word} {vs : List Word} {s t : State} :
    pushAll (v :: vs) s = .ok t ↔ ∃ u, push v s = .ok u ∧ pushAll vs u = .ok t :=
  except_bind_eq_ok

/-- Pushes of `n` words succeed from `SP` when there is room for them above the low-water mark, and only then. -/
theorem pushAll_succeeds_iff (vs : List Word) (s : State) (htop : (s.reg .sp).toNat + 2 ≤ s.cfg.memLen)
    (hlow : s.cfg.stackLow ≤ (s.reg .sp).toNat) :
    (∃ t, pushAll vs s = .ok t) ↔ s.cfg.stackLow + 2 * vs.length ≤ (s.reg .sp).toNat := by
  induction vs generalizing s with
  | nil => exact ⟨fun _ => hlow, fun _ => ⟨s, rfl⟩⟩
  | cons v vs ih =>
    rw [List.length_cons]
    by_cases hL : s.cfg.stackLow + 2 ≤ (s.reg .sp).toNat
    · have hnum := pushed_sp_toNat (s := s) (by omega) v
      have ih := ih (s.pushed v) (by rw [pushed_cfg]; omega) (by rw [pushed_cfg]; omega)
      simp only [pushAll_cons_eq_ok, push_legal (by omega) hL v, Except.ok.injEq, exists_eq_left', ih, pushed_cfg,
        hnum]
      omega
    · simp only [pushAll_cons_eq_ok, push_overflows (by omega) (not_le.mp hL) v, reduceCtorEq, false_and,
        exists_false, false_iff]
      omega

/-- Pushes that succeed lower `SP` by two for each word, leave the words above `SP` alone, and leave the `j`-th word
`2j` below the `SP` they began with. -/
theorem pushAll_layout {vs : List Word} {s t : State} (h : pushAll vs s = .ok t) :
    (t.reg .sp).toNat + 2 * vs.length = (s.reg .sp).toNat ∧
    (∀ a, (s.reg .sp).toNat + 1 < a → t.wordAt a = s.wordAt a) ∧
    ∀ j v, vs[j]? = some v → t.wordAt ((s.reg .sp).toNat - 2 * j) = v.toNat := by
  induction vs generalizing s with
  | nil =>
    cases h
    exact ⟨rfl, fun _ _ => rfl, fun j v hj => by simp at hj⟩
  | cons v vs ih =>
    obtain ⟨u, hp, hrest⟩ := pushAll_cons_eq_ok.mp h
    obtain ⟨-, hL, rfl⟩ := push_eq_ok hp
    have hnum := pushed_sp_toNat (s := s) (by omega) v
    obtain ⟨hsp, habove, hwords⟩ := ih hrest
    refine ⟨by rw [List.length_cons]; omega, fun a ha => ?above, fun j w hj => ?words⟩
    case above =>
      rw [habove a (by omega)]
      exact changesOnly_wordAt (pushed_changesOnly s v) fun b hb => by cases hb; exact .inr ha
    case words =>
      cases j with
      | zero =>
        cases hj
        rw [Nat.mul_zero, Nat.sub_zero, habove _ (by omega), pushed_wordAt]
      | succ j =>
        have hplace : (s.reg .sp).toNat - 2 * (j + 1) = ((s.pushed v).reg .sp).toNat - 2 * j := by omega
        rw [hplace]
        exact hwords j w hj

/-- Settles O46: the two facts above from `SP = N - 2`. -/
theorem stackLayoutAfterPushes : Obligations.StackLayoutAfterPushes := by
  rintro vs s ⟨-, -, hroom, -⟩ htop
  refine ⟨(pushAll_succeeds_iff vs s (by omega) (by omega)).trans (by omega), fun t ht => ?_⟩
  obtain ⟨hsp, -, hwords⟩ := pushAll_layout ht
  refine ⟨by omega, fun j v hj => ?_⟩
  have hplace : s.cfg.memLen - 2 * (j + 1) = (s.reg .sp).toNat - 2 * j := by omega
  rw [hplace, hwords j v hj]

/-! ### The bounds of `SP` -/

/-- The bounds speak of the parameters and of `SP` only. -/
theorem stackInBounds_congr {s t : State} (hcfg : t.cfg = s.cfg) (hsp : t.reg .sp = s.reg .sp)
    (h : s.StackInBounds) : t.StackInBounds := by
  rwa [State.StackInBounds, hcfg, hsp]

/-- A push keeps `SP` in its bounds. -/
theorem push_stackInBounds {v : Word} {s t : State} (h : push v s = .ok t) (hs : s.StackInBounds) :
    t.StackInBounds := by
  obtain ⟨hN, hL, rfl⟩ := push_eq_ok h
  obtain ⟨-, hhi⟩ := hs
  have hnum := pushed_sp_toNat (s := s) (by omega) v
  rw [State.StackInBounds, pushed_cfg, hnum]
  omega

/-- Raising `SP` past a word below the highest slot keeps it in its bounds. -/
theorem raise_sp_stackInBounds {s : State} (hmax : s.cfg.memLen ≤ 65536) (h : (s.reg .sp).toNat + 4 ≤ s.cfg.memLen)
    (hs : s.StackInBounds) : (s.setReg .sp (s.reg .sp + 2)).StackInBounds := by
  obtain ⟨hlo, -⟩ := hs
  rw [State.StackInBounds, setReg_reg, if_pos rfl, setReg_cfg, add_two_toNat (by omega)]
  omega

/-- Settles O47: of the instructions with no `SP` destination operand only the pushes and the pop have `SP` among their
destinations. -/
theorem stackPointerStaysInBounds : Obligations.StackPointerStaysInBounds := by
  rintro i s t ⟨-, hmax, -, -⟩ hs hd h
  by_cases hsp : .sp ∈ i.dests
  case neg => exact stackInBounds_congr (exec_mem_cases h).1 (exec_reg h hsp) hs
  cases i
  case pshLit imm => exact push_stackInBounds (commit_eq_next.mp h) hs
  case pshReg reg => exact push_stackInBounds (commit_eq_next.mp h) hs
  case pop reg =>
    obtain ⟨hle, rfl⟩ := exec_pop_eq_next h
    have hne : .sp ≠ wrapReg reg := fun heq => hd (congrArg some heq.symm)
    exact stackInBounds_congr (s := s.setReg .sp (s.reg .sp + 2)) rfl (by rw [setReg_reg, if_neg hne])
      (raise_sp_stackInBounds hmax hle hs)
  case movLitReg | movRegReg | movMemReg => exact absurd (congrArg some (List.mem_singleton.mp hsp).symm) hd
  case movRegMem | addRegReg | jmpNotEq => simp [Instr.dests] at hsp

end Sys2Proof.Machine
end
